-- ==== Sys2Proof/Word.lean ====
section
/-! DEFINITION. The bit vectors the spec names: bytes, window words, native operands, Uint256 values and register
indices (00_scope.md R2, R7, R8). All are unsigned (R8). -/

namespace Sys2Proof

/-- An 8-bit byte, the spec's byte-digit (00_scope.md R12). -/
abbrev Byte := BitVec 8

/-- A 32-bit word of the host window or a command word (00_scope.md R7). -/
abbrev Word := BitVec 32

/-- A 64-bit native operand or result (OPA, RES; 00_scope.md R7). -/
abbrev Native := BitVec 64

/-- A `Uint256` value: `V[r][255:0]`, byte i being bits 8i+7 down to 8i (10_state.md R21). -/
abbrev Value := BitVec 256

/-- A 4-bit unsigned value register index (30_encoding.md R81, R86). -/
abbrev RegIdx := BitVec 4

end Sys2Proof
end

