-- ==== Sys2Proof/Syntax.lean ====
section
/-! DEFINITION. The 17 commands of spec/opcode_table.json (30_encoding.md R82), with the register fields each uses. -/

namespace Sys2Proof

/-- A command of the block, with its used register fields (30_encoding.md R81, R82). -/
inductive Instr where
  | zero (rd : RegIdx)
  | one (rd : RegIdx)
  | fromu8 (rd : RegIdx)
  | fromu32 (rd : RegIdx)
  | fromu64 (rd : RegIdx)
  | fromslice (rd : RegIdx)
  | fromhex (rd : RegIdx)
  | tohex (rs1 : RegIdx)
  | shl (rd : RegIdx)
  | shr (rd : RegIdx)
  | add (rd rs1 rs2 : RegIdx)
  | mul (rd rs1 rs2 : RegIdx)
  | tou8 (rs1 : RegIdx)
  | tou32 (rs1 : RegIdx)
  | tou64 (rs1 : RegIdx)
  | getbyte (rs1 : RegIdx)
  | asbytes (rs1 : RegIdx)
  deriving DecidableEq, Repr

/-- The command names of the opcode map without operands (30_encoding.md R82). -/
inductive Op where
  | zero | one | fromu8 | fromu32 | fromu64 | fromslice | fromhex | tohex | shl | shr | add | mul
  | tou8 | tou32 | tou64 | getbyte | asbytes
  deriving DecidableEq, Repr

/-- The operation a command performs. -/
def Instr.op : Instr → Op
  | .zero _ => .zero
  | .one _ => .one
  | .fromu8 _ => .fromu8
  | .fromu32 _ => .fromu32
  | .fromu64 _ => .fromu64
  | .fromslice _ => .fromslice
  | .fromhex _ => .fromhex
  | .tohex _ => .tohex
  | .shl _ => .shl
  | .shr _ => .shr
  | .add _ _ _ => .add
  | .mul _ _ _ => .mul
  | .tou8 _ => .tou8
  | .tou32 _ => .tou32
  | .tou64 _ => .tou64
  | .getbyte _ => .getbyte
  | .asbytes _ => .asbytes

/-- The register fields a command uses, in the order rd, rs1, rs2 in which R83 checks them. -/
def Instr.regs : Instr → List RegIdx
  | .zero rd => [rd]
  | .one rd => [rd]
  | .fromu8 rd => [rd]
  | .fromu32 rd => [rd]
  | .fromu64 rd => [rd]
  | .fromslice rd => [rd]
  | .fromhex rd => [rd]
  | .tohex rs1 => [rs1]
  | .shl rd => [rd]
  | .shr rd => [rd]
  | .add rd rs1 rs2 => [rd, rs1, rs2]
  | .mul rd rs1 rs2 => [rd, rs1, rs2]
  | .tou8 rs1 => [rs1]
  | .tou32 rs1 => [rs1]
  | .tou64 rs1 => [rs1]
  | .getbyte rs1 => [rs1]
  | .asbytes rs1 => [rs1]

end Sys2Proof
end

