-- ==== Sys2Proof/Decode.lean ====
section
/-! DEFINITION. The command word (30_encoding.md R80 to R85): its fields, the opcode map with match and mask, the decoder
(the first two checks of R83, in their order) and the encoder (R81). -/

namespace Sys2Proof

/-- Bits 7:0 of a command word (R81). -/
def opField (w : Word) : BitVec 8 := w.extractLsb' 0 8

/-- Bits 11:8 (R81). -/
def rdField (w : Word) : RegIdx := w.extractLsb' 8 4

/-- Bits 15:12 (R81). -/
def rs1Field (w : Word) : RegIdx := w.extractLsb' 12 4

/-- Bits 19:16 (R81). -/
def rs2Field (w : Word) : RegIdx := w.extractLsb' 16 4

/-- The opcode of each command (R82). -/
def opcode : Op → BitVec 8
  | .zero => 0x01#8
  | .one => 0x02#8
  | .fromu8 => 0x03#8
  | .fromu32 => 0x04#8
  | .fromu64 => 0x05#8
  | .fromslice => 0x06#8
  | .fromhex => 0x10#8
  | .tohex => 0x11#8
  | .shl => 0x20#8
  | .shr => 0x21#8
  | .add => 0x30#8
  | .mul => 0x31#8
  | .tou8 => 0x40#8
  | .tou32 => 0x41#8
  | .tou64 => 0x42#8
  | .getbyte => 0x43#8
  | .asbytes => 0x44#8

/-- MATCH[op] (R82): the opcode with every other fixed bit zero. -/
def matchBits : Op → Word
  | .zero => 0x00000001#32
  | .one => 0x00000002#32
  | .fromu8 => 0x00000003#32
  | .fromu32 => 0x00000004#32
  | .fromu64 => 0x00000005#32
  | .fromslice => 0x00000006#32
  | .fromhex => 0x00000010#32
  | .tohex => 0x00000011#32
  | .shl => 0x00000020#32
  | .shr => 0x00000021#32
  | .add => 0x00000030#32
  | .mul => 0x00000031#32
  | .tou8 => 0x00000040#32
  | .tou32 => 0x00000041#32
  | .tou64 => 0x00000042#32
  | .getbyte => 0x00000043#32
  | .asbytes => 0x00000044#32

/-- MASK[op] (R82): every bit but the used register fields. -/
def maskBits : Op → Word
  | .zero => 0xFFFFF0FF#32
  | .one => 0xFFFFF0FF#32
  | .fromu8 => 0xFFFFF0FF#32
  | .fromu32 => 0xFFFFF0FF#32
  | .fromu64 => 0xFFFFF0FF#32
  | .fromslice => 0xFFFFF0FF#32
  | .fromhex => 0xFFFFF0FF#32
  | .tohex => 0xFFFF0FFF#32
  | .shl => 0xFFFFF0FF#32
  | .shr => 0xFFFFF0FF#32
  | .add => 0xFFF000FF#32
  | .mul => 0xFFF000FF#32
  | .tou8 => 0xFFFF0FFF#32
  | .tou32 => 0xFFFF0FFF#32
  | .tou64 => 0xFFFF0FFF#32
  | .getbyte => 0xFFFF0FFF#32
  | .asbytes => 0xFFFF0FFF#32

/-- Every command of the map (R82). -/
def allOps : List Op :=
  [.zero, .one, .fromu8, .fromu32, .fromu64, .fromslice, .fromhex, .tohex, .shl, .shr, .add, .mul,
   .tou8, .tou32, .tou64, .getbyte, .asbytes]

/-- The command an opcode names, if any (R82; the reserved opcodes of R84 name none). -/
def opOfCode (c : BitVec 8) : Option Op := allOps.find? (fun o => opcode o == c)

/-- The instruction of a command and its register fields, those it does not use dropped (R81, R82). -/
def instrOf (o : Op) (rd rs1 rs2 : RegIdx) : Instr :=
  match o with
  | .zero => .zero rd
  | .one => .one rd
  | .fromu8 => .fromu8 rd
  | .fromu32 => .fromu32 rd
  | .fromu64 => .fromu64 rd
  | .fromslice => .fromslice rd
  | .fromhex => .fromhex rd
  | .tohex => .tohex rs1
  | .shl => .shl rd
  | .shr => .shr rd
  | .add => .add rd rs1 rs2
  | .mul => .mul rd rs1 rs2
  | .tou8 => .tou8 rs1
  | .tou32 => .tou32 rs1
  | .tou64 => .tou64 rs1
  | .getbyte => .getbyte rs1
  | .asbytes => .asbytes rs1

/-- Why a word is no command, by name (R84). -/
inductive DecodeError where
  /-- op is not an opcode of R82 -/
  | reservedOpcode
  /-- bits 31:20 or a register field the op does not use is nonzero -/
  | nonzeroField
  deriving DecidableEq, Repr

/-- The first two checks of `execute` in R83's order; the third (REG_RANGE) depends on NUM_VREGS and is made where the
command runs (`Machine.guarded`; DESIGN CHOICE, log entry 12). Total: every word is a command or one of the two errors. -/
def decode (w : Word) : Except DecodeError Instr :=
  match opOfCode (opField w) with
  | none => .error .reservedOpcode
  | some o =>
    if w &&& maskBits o = matchBits o then .ok (instrOf o (rdField w) (rs1Field w) (rs2Field w))
    else .error .nonzeroField

/-- `w = op | (rd << 8) | (rs1 << 12) | (rs2 << 16)` (R81). -/
def packFields (op : BitVec 8) (rd rs1 rs2 : RegIdx) : Word :=
  op.zeroExtend 32 ||| (rd.zeroExtend 32 <<< 8) ||| (rs1.zeroExtend 32 <<< 12) ||| (rs2.zeroExtend 32 <<< 16)

/-- The word of a command; a field it does not use is 0 (R81). -/
def encode : Instr → Word
  | .zero rd => packFields (opcode .zero) rd 0 0
  | .one rd => packFields (opcode .one) rd 0 0
  | .fromu8 rd => packFields (opcode .fromu8) rd 0 0
  | .fromu32 rd => packFields (opcode .fromu32) rd 0 0
  | .fromu64 rd => packFields (opcode .fromu64) rd 0 0
  | .fromslice rd => packFields (opcode .fromslice) rd 0 0
  | .fromhex rd => packFields (opcode .fromhex) rd 0 0
  | .tohex rs1 => packFields (opcode .tohex) 0 rs1 0
  | .shl rd => packFields (opcode .shl) rd 0 0
  | .shr rd => packFields (opcode .shr) rd 0 0
  | .add rd rs1 rs2 => packFields (opcode .add) rd rs1 rs2
  | .mul rd rs1 rs2 => packFields (opcode .mul) rd rs1 rs2
  | .tou8 rs1 => packFields (opcode .tou8) 0 rs1 0
  | .tou32 rs1 => packFields (opcode .tou32) 0 rs1 0
  | .tou64 rs1 => packFields (opcode .tou64) 0 rs1 0
  | .getbyte rs1 => packFields (opcode .getbyte) 0 rs1 0
  | .asbytes rs1 => packFields (opcode .asbytes) 0 rs1 0

/-- The instruction the decoder reads from a table row's word: `nbits` low bits of `w`, the rest zero. A command is one
32-bit word (R80), so its bits are numbered as the table numbers them. -/
def decodeTableWord (nbits w : Nat) : Option Instr :=
  match decode (BitVec.ofNat 32 (w % 2 ^ nbits)) with
  | .ok i => some i
  | .error _ => none

end Sys2Proof
end

