-- ==== Sys2Proof/Config.lean ====
section
/-! DEFINITION. What an implementation fixes (00_scope.md R7; 93_implementation_defined.md P1 to P3). -/

namespace Sys2Proof.Config

/-- NUM_VREGS of the machine `State.reset` describes: the spec's reference value (00_scope.md R7, decision D2).
DESIGN CHOICE, log entry 1: the spec leaves NUM_VREGS open in 1..16. The meanings never read this constant: they read
the number of registers the state holds. -/
def referenceNumVRegs : Nat := 4

/-- IOBUF_BYTES: "0x" plus 64 digits (00_scope.md R7). -/
def ioBufBytes : Nat := 66

/-- VALUE_BYTES (00_scope.md R7). -/
def valueBytes : Nat := 32

/-- The spec version CONFIG reports (10_state.md R34). -/
def specVersion : Nat := 1

/-- The identification constant (10_state.md R33). -/
def idConstant : Word := 0x55323536#32

/-- WINDOW_BASE, the host platform's choice (10_state.md R30; P2). No rule of a command reads it. -/
opaque windowBase : Nat

/-- LATENCY(op), a constant per opcode (70_reset_and_hazards.md R236; P3). No rule reads it: the model has no time. -/
opaque latency : BitVec 8 → Nat

end Sys2Proof.Config
end

