-- ==== Sys2Proof/Machine/State.lean ====
section
/-! DEFINITION. The state of the block (10_state.md R20 to R28, R31, R41), the host's accesses waiting for it, reset
(R40) and the reasons the model stops. Plain data. -/

namespace Sys2Proof.Machine

/-- STATUS.ERR (60_exceptions.md R200). Codes 6..15 are never produced (P10), so they are no values of the model
(DEDUCED, log entry 11). -/
inductive ErrKind where
  | none | construction | index | overflow | unimplemented | illegal
  deriving DecidableEq, Repr

/-- STATUS (10_state.md R28): the report of the last command and the sticky bit. Bits 31:17 read 0 and no access writes
them, so they are not held. -/
structure Status where
  /-- bits 3:0 -/
  err : ErrKind
  /-- bits 7:4 (60_exceptions.md R201) -/
  cause : BitVec 4
  /-- bits 15:8 -/
  opc : BitVec 8
  /-- bit 16 -/
  sticky : Bool
  deriving DecidableEq, Repr

/-- Bytes by address, in one canonical form: addresses strictly rising, every address a byte of IOBUF, no entry equal to
what an unlisted address reads as (0, its reset value: 10_state.md R40). IOBUF is the block's only byte-addressed
storage (20_memory.md R69); the address is the index k of `IOBUF[k]`. DESIGN CHOICE (representation), log entry 3. -/
abbrev Memory := List Host.Cell

/-- The canonical form of a tail whose addresses are at least `lo`. -/
def Memory.wfFrom (lo : Nat) : Memory → Bool
  | [] => true
  | (a, b) :: m => decide (lo ≤ a) && decide (a < Config.ioBufBytes) && (b != 0#8) && Memory.wfFrom (a + 1) m

/-- The canonical form. -/
def Memory.wf (m : Memory) : Bool := Memory.wfFrom 0 m

/-- What reaches the block from outside, in the order the host issues it (20_memory.md R70). -/
inductive HostEvent where
  /-- a read of `width` bytes at window byte offset `off`; `MemRead(off, 4)` is `read off 4` (00_scope.md R9) -/
  | read (off width : Nat)
  /-- a write of `width` bytes; `MemWrite(off, 4, w)` is `write off 4 w` -/
  | write (off width : Nat) (w : Word)
  /-- the platform's reset, between two accesses (70_reset_and_hazards.md R230) -/
  | reset
  deriving DecidableEq, Repr

/-- The block and the host's side of its window. -/
structure State where
  /-- `V[0] .. V[NUM_VREGS-1]` (R20). NUM_VREGS is the number of entries: log entry 1. -/
  vregs : List Value
  /-- OPA (R24) -/
  opa : Native
  /-- RES (R25) -/
  res : Native
  /-- IOLEN (R27) -/
  iolen : BitVec 16
  /-- IOBUF (R26) -/
  iobuf : Memory
  /-- CMD, the last word written to it (R31) -/
  cmd : Word
  /-- STATUS (R28) -/
  status : Status
  /-- the MODEL's field: host accesses not yet performed, oldest first (log entry 2) -/
  pending : List HostEvent
  /-- the MODEL's field: the words the host has read, oldest first (70_reset_and_hazards.md R237, log entry 2) -/
  reads : List Word
  deriving DecidableEq, Repr

/-- NUM_VREGS of the block a state describes (R20). -/
def State.numVRegs (s : State) : Nat := s.vregs.length

/-- The value of every piece of state after reset, for a block of `n` value registers (10_state.md R40). -/
def State.resetWith (n : Nat) : State where
  vregs := List.replicate n 0#256
  opa := 0#64
  res := 0#64
  iolen := 0#16
  iobuf := []
  cmd := 0#32
  status := { err := .none, cause := 0#4, opc := 0#8, sticky := false }
  pending := []
  reads := []

/-- The machine right after reset, with the reference NUM_VREGS (R40; log entry 1) and no host access pending. -/
def State.reset : State := State.resetWith Config.referenceNumVRegs

/-- Why the machine stops. -/
inductive Fault where
  /-- Raised by `perform` for an access at an offset of 0x100 or more: the only address space is the 256-byte window
  (20_memory.md R69). Safe: the model stops where the spec has no transition. Log entry 6. -/
  | outsideWindow
  deriving DecidableEq, Repr

/-- Why the model has no meaning to give. -/
inductive Refusal where
  /-- An arm of `exec` with no meaning yet. No arm raises it: every command has its meaning. Safe. -/
  | notModelled (mnemonic : String)
  /-- Raised by `perform` for an access that is not 4 bytes wide or not at a multiple of 4: "such an access has no
  meaning in this spec, and a model refuses it" (20_memory.md R66; P11). Safe. -/
  | undefinedAccess
  deriving DecidableEq, Repr

end Sys2Proof.Machine
end

