-- ==== Sys2Proof/Machine/Flags.lean ====
section
/-! DEFINITION. STATUS, the block's only flags (10_state.md R28, R29): the codes of ERR and CAUSE, the two reports, and
the word the host reads (R32). -/

namespace Sys2Proof.Machine

/-- The STATUS.ERR code of an error kind (60_exceptions.md R200). -/
def errCode : ErrKind → BitVec 4
  | .none => 0#4
  | .construction => 1#4
  | .index => 2#4
  | .overflow => 3#4
  | .unimplemented => 4#4
  | .illegal => 5#4

/-- FROMHEX: no characters after the optional prefix (60_exceptions.md R201). -/
def causeEmpty : BitVec 4 := 1#4

/-- FROMHEX: a character after the prefix is not a hex digit (R201). -/
def causeBadDigit : BitVec 4 := 2#4

/-- FROMHEX: IOLEN > 66, or more than 64 characters after the prefix (R201). -/
def causeHexTooWide : BitVec 4 := 3#4

/-- FROMSLICE: IOLEN > 32 (R201). -/
def causeSliceTooWide : BitVec 4 := 4#4

/-- ILLEGAL: op not in the opcode map (R201). -/
def causeReservedOpcode : BitVec 4 := 1#4

/-- ILLEGAL: bits 31:20 or an unused register field nonzero (R201). -/
def causeNonzeroField : BitVec 4 := 2#4

/-- ILLEGAL: a used register field `>= NUM_VREGS` (R201). -/
def causeRegRange : BitVec 4 := 3#4

/-- No sub-cause (R201). -/
def causeNone : BitVec 4 := 0#4

/-- The report of a command that failed (60_exceptions.md R203, R205). -/
def failureReport (op : BitVec 8) (kind : ErrKind) (cause : BitVec 4) : Status :=
  { err := kind, cause := cause, opc := op, sticky := true }

/-- The report of a command that succeeded; STICKY stays (60_exceptions.md R204). -/
def successReport (op : BitVec 8) (old : Status) : Status :=
  { err := .none, cause := causeNone, opc := op, sticky := old.sticky }

/-- `{15'b0, STICKY, OPC, CAUSE, ERR}` (10_state.md R32). -/
def statusWord (st : Status) : Word :=
  0#15 ++ BitVec.ofBool st.sticky ++ st.opc ++ st.cause ++ errCode st.err

end Sys2Proof.Machine
end

