-- ==== Sys2Proof/Machine/Bytes.lean ====
section
/-! DEFINITION. The byte view of values and native words: byte i is bits 8i+7 down to 8i (00_scope.md R8; 10_state.md
R21; 20_memory.md R60, R62). -/

namespace Sys2Proof.Machine

/-- `v.byte[i]` (R8). -/
def byteAt (v : Value) (i : Nat) : Byte := v.extractLsb' (8 * i) 8

/-- Byte i of a native operand, `n[8i+7:8i]` (40_construction.md R100). -/
def nativeByte (n : Native) (i : Nat) : Byte := n.extractLsb' (8 * i) 8

/-- `Σ f(i) * 256^i` for i in 0..n-1 (10_state.md R21). -/
def byteSum (f : Nat → Byte) : Nat → Nat
  | 0 => 0
  | n + 1 => byteSum f n + (f n).toNat * 256 ^ n

/-- The value whose 32 bytes are `f 0 .. f 31`, byte 0 the least significant: all 32 bytes at once (10_state.md R22). -/
def ofBytes (f : Nat → Byte) : Value := BitVec.ofNat 256 (byteSum f 32)

/-- Byte i of a 32-bit window word: lane i (20_memory.md R64). -/
def wordByte (w : Word) (i : Nat) : Byte := w.extractLsb' (8 * i) 8

/-- A window word from its four bytes, the lowest-numbered in bits 7:0 (10_state.md R38). -/
def wordOfBytes (b0 b1 b2 b3 : Byte) : Word := b3 ++ b2 ++ b1 ++ b0

end Sys2Proof.Machine
end

