-- ==== Sys2Proof/Machine/Operands.lean ====
section
/-! DEFINITION. Where a command's operands come from (30_encoding.md R86): register fields as they stand, OPA, IOLEN and
IOBUF as the host or an earlier command left them (70_reset_and_hazards.md R234). Nothing is sign-extended. -/

namespace Sys2Proof.Machine

/-- `V[r]`. The default is never seen by a command: R83 checks the range first (`guarded`). -/
def State.getV (s : State) (r : RegIdx) : Value := s.vregs.getD r.toNat 0#256

/-- A native operand of `k` bytes placed little-endian in a value, the higher bytes zero (40_construction.md R100):
bytes of OPA at and above `k` are ignored (10_state.md R24). -/
def nativePlacement (k : Nat) (n : Native) : Value :=
  ofBytes (fun i => if i < k then nativeByte n i else 0#8)

/-- The shift amount's byte part, `places div 8` (42_shift.md R141). -/
def byteShift (places : Native) : Nat := places.toNat / 8

/-- The shift amount's bit part, `places mod 8` (42_shift.md R141). -/
def bitShift (places : Native) : Nat := places.toNat % 8

/-- `IOBUF[k]`; an unlisted byte reads 0, its reset value (10_state.md R40), and so do the lanes of bytes 66 and 67, which
do not exist (R38). -/
def Memory.read : Memory → Nat → Byte
  | [], _ => 0#8
  | (a, b) :: m, k => if a = k then b else Memory.read m k

/-- `IOBUF[0 .. n-1]` (41_hex_codec.md R121). -/
def ioBytes (m : Memory) (n : Nat) : List Byte := (List.range n).map (Memory.read m)

end Sys2Proof.Machine
end

