-- ==== Sys2Proof/WellFormed.lean ====
section
/-! DEFINITION. A command is well formed for a block of n value registers when every register field it uses names one of
them (30_encoding.md R83, R84: a used field `>= NUM_VREGS` is ILLEGAL, CAUSE 3). Every other form of a word is already
excluded by the types of `Instr`'s fields. -/

namespace Sys2Proof

/-- `r` names a register of a block with `n` of them. -/
def regOk (n : Nat) (r : RegIdx) : Bool := decide (r.toNat < n)

/-- Every used register field is in range (30_encoding.md R83). -/
def regsOk (n : Nat) (rs : List RegIdx) : Bool := rs.all (regOk n)

/-- Well-formedness of a command for NUM_VREGS = `n`. -/
def Instr.wellFormed (n : Nat) (i : Instr) : Bool := regsOk n i.regs

end Sys2Proof
end

