-- ==== Sys2Proof/Machine/Ops.lean ====
section
/-! DEFINITION. The operations the commands share: writing IOBUF and registers, the error report and the success report
(60_exceptions.md R203, R204), and the register range check (30_encoding.md R83). The block has no exception entry
and no return from one (60_exceptions.md R207): `raise` is what the spec has in that place. -/

namespace Sys2Proof.Machine

/-- Put byte `b` at address `k` of a canonical list, keeping it canonical. -/
def Memory.insert (k : Nat) (b : Byte) : Memory → Memory
  | [] => if b = 0#8 then [] else [(k, b)]
  | (a, c) :: m =>
    if k < a then (if b = 0#8 then (a, c) :: m else (k, b) :: (a, c) :: m)
    else if k = a then (if b = 0#8 then m else (k, b) :: m)
    else (a, c) :: Memory.insert k b m

/-- `IOBUF[k] <- b`; the bytes 66 and 67 do not exist and a value written to them is ignored (10_state.md R38). -/
def Memory.write (m : Memory) (k : Nat) (b : Byte) : Memory :=
  if k < Config.ioBufBytes then Memory.insert k b m else m

/-- Write consecutive bytes from address `k` up. -/
def Memory.writeBytes (m : Memory) (k : Nat) : List Byte → Memory
  | [] => m
  | b :: bs => Memory.writeBytes (Memory.write m k b) (k + 1) bs

/-- `V[r] <- v`, all 32 bytes at once (10_state.md R22). -/
def State.setV (s : State) (r : RegIdx) (v : Value) : State := { s with vregs := s.vregs.set r.toNat v }

/-- `RES <- v` (10_state.md R25). -/
def State.setRes (s : State) (v : Native) : State := { s with res := v }

/-- A byte string rendered or exported into `IOBUF[0 ..]`, IOLEN set to its length (10_state.md R26, R27). -/
def State.exportBytes (s : State) (bs : List Byte) : State :=
  { s with iobuf := s.iobuf.writeBytes 0 bs, iolen := BitVec.ofNat 16 bs.length }

/-- `raise Error(kind, cause)` for the command whose opcode bits are `op`: STATUS and nothing else (R203). -/
def raise (op : BitVec 8) (kind : ErrKind) (cause : BitVec 4) (s : State) : State :=
  { s with status := failureReport op kind cause }

/-- The success report at the end of a command (R204). -/
def complete (op : BitVec 8) (s : State) : State := { s with status := successReport op s.status }

/-- Run a command whose used register fields are `rs`: REG_RANGE if one of them names no register (R83, third check),
otherwise the command's own next state. -/
def guarded (op : Op) (rs : List RegIdx) (s : State) (run : State) : Host.Outcome State Fault Refusal :=
  .next (if regsOk s.numVRegs rs then run else raise (opcode op) .illegal causeRegRange s)

end Sys2Proof.Machine
end

