-- ==== Sys2Proof/Machine/AddNarrow.lean ====
section
/-! DEFINITION. Addition, the multiplication that always fails, checked narrowing and byte access (43_add_narrow.md R160
to R169). -/

namespace Sys2Proof.Machine

/-- The carry into stage i of the ripple-carry chain, 0 or 1 (R160, R162). -/
def carryInto (a b : Value) : Nat → Nat
  | 0 => 0
  | i + 1 => (carryInto a b i + (byteAt a i).toNat + (byteAt b i).toNat) / 256

/-- Stage i's sum byte, `s mod 256` (R160). -/
def sumByte (a b : Value) (i : Nat) : Byte :=
  BitVec.ofNat 8 ((carryInto a b i + (byteAt a i).toNat + (byteAt b i).toNat) % 256)

/-- The 32 stages; the carry out of byte 31 is discarded (R160). -/
def rippleAdd (a b : Value) : Value := ofBytes (sumByte a b)

/-- ADD; both sources are read before `V[rd]` is written (R160; 00_scope.md R11). -/
def execAdd (rd rs1 rs2 : RegIdx) (s : State) : Host.Outcome State Fault Refusal :=
  guarded .add [rd, rs1, rs2] s (complete (opcode .add) (s.setV rd (rippleAdd (s.getV rs1) (s.getV rs2))))

/-- MUL always fails with UNIMPLEMENTED and writes nothing else (R163). -/
def execMul (rd rs1 rs2 : RegIdx) (s : State) : Host.Outcome State Fault Refusal :=
  guarded .mul [rd, rs1, rs2] s (raise (opcode .mul) .unimplemented causeNone s)

/-- Every byte of the value at index k or above is zero (R164). -/
def highBytesZero (k : Nat) (v : Value) : Bool :=
  (List.range 32).all (fun i => decide (i < k) || (byteAt v i == 0#8))

/-- `narrow(N)` with k = N/8: RES on success, OVERFLOW with RES unchanged otherwise (R164). -/
def narrow (op : Op) (k : Nat) (rs1 : RegIdx) (s : State) : Host.Outcome State Fault Refusal :=
  guarded op [rs1] s
    (if highBytesZero k (s.getV rs1) then
       complete (opcode op) (s.setRes (BitVec.ofNat 64 (byteSum (byteAt (s.getV rs1)) k)))
     else raise (opcode op) .overflow causeNone s)

/-- TOU8 is `narrow(8)` (R165). -/
def execTou8 (rs1 : RegIdx) (s : State) : Host.Outcome State Fault Refusal := narrow .tou8 1 rs1 s

/-- TOU32 is `narrow(32)` (R166). -/
def execTou32 (rs1 : RegIdx) (s : State) : Host.Outcome State Fault Refusal := narrow .tou32 4 rs1 s

/-- TOU64 is `narrow(64)` (R167). -/
def execTou64 (rs1 : RegIdx) (s : State) : Host.Outcome State Fault Refusal := narrow .tou64 8 rs1 s

/-- GETBYTE: byte OPA of `V[rs1]`, the index not reduced modulo 32 (R168). -/
def execGetbyte (rs1 : RegIdx) (s : State) : Host.Outcome State Fault Refusal :=
  guarded .getbyte [rs1] s
    (if 32 ≤ s.opa.toNat then raise (opcode .getbyte) .index causeNone s
     else complete (opcode .getbyte) (s.setRes ((byteAt (s.getV rs1) s.opa.toNat).zeroExtend 64)))

/-- ASBYTES: the 32 bytes in storage order, IOLEN 32; `IOBUF[32..65]` unchanged (R169). -/
def execAsbytes (rs1 : RegIdx) (s : State) : Host.Outcome State Fault Refusal :=
  guarded .asbytes [rs1] s
    (complete (opcode .asbytes) (s.exportBytes ((List.range 32).map (byteAt (s.getV rs1)))))

end Sys2Proof.Machine
end

