-- ==== Sys2Proof/Machine/Construct.lean ====
section
/-! DEFINITION. The construction commands (40_construction.md R100 to R106). -/

namespace Sys2Proof.Machine

/-- A constructor that cannot fail beyond decode: `V[rd] <- v`, success. -/
def construct (op : Op) (rd : RegIdx) (v : Value) (s : State) : Host.Outcome State Fault Refusal :=
  guarded op [rd] s (complete (opcode op) (s.setV rd v))

/-- ZERO: every byte 0 (R101). -/
def execZero (rd : RegIdx) (s : State) : Host.Outcome State Fault Refusal :=
  construct .zero rd (ofBytes (fun _ => 0#8)) s

/-- ONE: byte 0 is 1, the others 0 (R102). -/
def execOne (rd : RegIdx) (s : State) : Host.Outcome State Fault Refusal :=
  construct .one rd (ofBytes (fun i => if i = 0 then 0x01#8 else 0#8)) s

/-- FROMU8 (R103, R100 with N = 8). -/
def execFromu8 (rd : RegIdx) (s : State) : Host.Outcome State Fault Refusal :=
  construct .fromu8 rd (nativePlacement 1 s.opa) s

/-- FROMU32 (R104, R100 with N = 32). -/
def execFromu32 (rd : RegIdx) (s : State) : Host.Outcome State Fault Refusal :=
  construct .fromu32 rd (nativePlacement 4 s.opa) s

/-- FROMU64 (R105, R100 with N = 64). -/
def execFromu64 (rd : RegIdx) (s : State) : Host.Outcome State Fault Refusal :=
  construct .fromu64 rd (nativePlacement 8 s.opa) s

/-- The value of the byte slice `IOBUF[0 .. n-1]`, higher bytes zero (R106). -/
def sliceValue (m : Memory) (n : Nat) : Value :=
  ofBytes (fun i => if i < n then m.read i else 0#8)

/-- FROMSLICE (R106). -/
def execFromslice (rd : RegIdx) (s : State) : Host.Outcome State Fault Refusal :=
  guarded .fromslice [rd] s
    (if 32 < s.iolen.toNat then raise (opcode .fromslice) .construction causeSliceTooWide s
     else complete (opcode .fromslice) (s.setV rd (sliceValue s.iobuf s.iolen.toNat)))

end Sys2Proof.Machine
end

