-- ==== Sys2Proof/Machine/Hex.lean ====
section
/-! DEFINITION. The hexadecimal codec (41_hex_codec.md R120 to R122). Text is one ASCII byte per character. -/

namespace Sys2Proof.Machine

/-- `hexval(c)`: the digits in two cases, every other byte is no digit (R120). -/
def hexval (c : Byte) : Option Nat :=
  if 0x30 ≤ c.toNat ∧ c.toNat ≤ 0x39 then some (c.toNat - 0x30)
  else if 0x61 ≤ c.toNat ∧ c.toNat ≤ 0x66 then some (c.toNat - 0x61 + 10)
  else if 0x41 ≤ c.toNat ∧ c.toNat ≤ 0x46 then some (c.toNat - 0x41 + 10)
  else none

/-- `hexchar(n)`, lower case only (R120). -/
def hexchar (n : BitVec 4) : Byte :=
  if n.toNat ≤ 9 then BitVec.ofNat 8 (0x30 + n.toNat) else BitVec.ofNat 8 (0x61 + (n.toNat - 10))

/-- Strip at most one "0x" or "0X", at the start only (R121 step 1, decision D35). -/
def stripPrefix : List Byte → List Byte
  | c0 :: c1 :: t => if c0 = 0x30#8 ∧ (c1 = 0x78#8 ∨ c1 = 0x58#8) then t else c0 :: c1 :: t
  | t => t

/-- An odd digit count gets one leading '0' (R121 step 3). -/
def padEven (t : List Byte) : List Byte := if t.length % 2 = 1 then 0x30#8 :: t else t

/-- Group k of the text, two characters, the first the high nibble (20_memory.md R61). -/
def groupByte (t : List Byte) (k : Nat) : Byte :=
  BitVec.ofNat 8 ((hexval (t.getD (2 * k) 0x30#8)).getD 0 * 16 + (hexval (t.getD (2 * k + 1) 0x30#8)).getD 0)

/-- The value of an even-length digit text: the last group is byte 0, bytes past the text are zero (R121 steps 4, 6). -/
def groupsValue (t : List Byte) : Value :=
  ofBytes (fun j => if j < t.length / 2 then groupByte t (t.length / 2 - 1 - j) else 0#8)

/-- The text after the prefix: its value, or the CAUSE of the first check that fails (R121, R202). -/
def parseDigits (t : List Byte) : Except (BitVec 4) Value :=
  if t.length = 0 then .error causeEmpty
  else if 64 < t.length then .error causeHexTooWide
  else if t.any (fun c => (hexval c).isNone) then .error causeBadDigit
  else .ok (groupsValue (padEven t))

/-- FROMHEX's parse of `IOBUF[0 .. n-1]`; a length over 66 fails before any byte is read (R121). -/
def parseHex (m : Memory) (n : Nat) : Except (BitVec 4) Value :=
  if 66 < n then .error causeHexTooWide else parseDigits (stripPrefix (ioBytes m n))

/-- FROMHEX (R121). -/
def execFromhex (rd : RegIdx) (s : State) : Host.Outcome State Fault Refusal :=
  guarded .fromhex [rd] s
    (match parseHex s.iobuf s.iolen.toNat with
     | .error c => raise (opcode .fromhex) .construction c s
     | .ok v => complete (opcode .fromhex) (s.setV rd v))

/-- The two characters of a byte, high nibble first (R122). -/
def byteText (b : Byte) : List Byte := [hexchar (b.extractLsb' 4 4), hexchar (b.extractLsb' 0 4)]

/-- "0x" and 64 digits, byte 31 first (R122). -/
def hexText (v : Value) : List Byte :=
  0x30#8 :: 0x78#8 :: (List.range 32).flatMap (fun k => byteText (byteAt v (31 - k)))

/-- TOHEX (R122). -/
def execTohex (rs1 : RegIdx) (s : State) : Host.Outcome State Fault Refusal :=
  guarded .tohex [rs1] s (complete (opcode .tohex) (s.exportBytes (hexText (s.getV rs1))))

end Sys2Proof.Machine
end

