-- ==== Sys2Proof/Machine/Shift.lean ====
section
/-! DEFINITION. The two-phase shift engine (42_shift.md R140 to R143): a byte move, then a bit cascade. The spec's loops
read each byte before they overwrite it, so each phase is written as one simultaneous step on the working copy b
(DEDUCED, log entry 4). The arithmetic meaning (R144, R145) is a statement about these definitions. -/

namespace Sys2Proof.Machine

/-- SHL's byte phase: `b[i] <- b[i - bs]` for i from 31 down to bs, zero below (R142; nothing moves when bs = 0). -/
def bytePhaseLeft (bs : Nat) (b : Nat → Byte) : Nat → Byte :=
  fun i => if bs ≤ i then b (i - bs) else 0#8

/-- SHL's bit phase: the carry comes from the byte below (R142). -/
def bitPhaseLeft (bt : Nat) (b : Nat → Byte) : Nat → Byte :=
  fun i =>
    if bt = 0 then b i
    else if i = 0 then b 0 <<< bt
    else (b i <<< bt) ||| (b (i - 1) >>> (8 - bt))

/-- SHR's byte phase: `b[i] <- b[i + bs]` for i from 0 to 31 - bs inclusive, zero above (R143). -/
def bytePhaseRight (bs : Nat) (b : Nat → Byte) : Nat → Byte :=
  fun i => if i + bs ≤ 31 then b (i + bs) else 0#8

/-- SHR's bit phase: the carry comes from the byte above; byte 31 has none (R143). -/
def bitPhaseRight (bt : Nat) (b : Nat → Byte) : Nat → Byte :=
  fun i =>
    if bt = 0 then b i
    else if i = 31 then b 31 >>> bt
    else (b i >>> bt) ||| (b (i + 1) <<< (8 - bt))

/-- The shifted value: the guard of R141, then the byte phase, then the bit phase (R142). -/
def shiftLeft (v : Value) (places : Native) : Value :=
  if 32 ≤ byteShift places then ofBytes (fun _ => 0#8)
  else ofBytes (bitPhaseLeft (bitShift places) (bytePhaseLeft (byteShift places) (byteAt v)))

/-- The shifted value: the guard of R141, then the byte phase, then the bit phase (R143). -/
def shiftRight (v : Value) (places : Native) : Value :=
  if 32 ≤ byteShift places then ofBytes (fun _ => 0#8)
  else ofBytes (bitPhaseRight (bitShift places) (bytePhaseRight (byteShift places) (byteAt v)))

/-- SHL, in place, by OPA (R140, R142). -/
def execShl (rd : RegIdx) (s : State) : Host.Outcome State Fault Refusal :=
  guarded .shl [rd] s (complete (opcode .shl) (s.setV rd (shiftLeft (s.getV rd) s.opa)))

/-- SHR, in place, by OPA (R140, R143). -/
def execShr (rd : RegIdx) (s : State) : Host.Outcome State Fault Refusal :=
  guarded .shr [rd] s (complete (opcode .shr) (s.setV rd (shiftRight (s.getV rd) s.opa)))

end Sys2Proof.Machine
end

