-- ==== Sys2Proof/Machine/Dispatch.lean ====
section
/-! DEFINITION. One arm per command of spec/opcode_table.json (30_encoding.md R82, R83 "perform the rule of op"). -/

namespace Sys2Proof.Machine

def exec (i : Instr) (s : State) : Host.Outcome State Fault Refusal :=
  match i with
  -- 40_construction.md
  | .zero rd => Sys2Proof.Machine.execZero rd s
  | .one rd => Sys2Proof.Machine.execOne rd s
  | .fromu8 rd => Sys2Proof.Machine.execFromu8 rd s
  | .fromu32 rd => Sys2Proof.Machine.execFromu32 rd s
  | .fromu64 rd => Sys2Proof.Machine.execFromu64 rd s
  | .fromslice rd => Sys2Proof.Machine.execFromslice rd s
  -- 41_hex_codec.md
  | .fromhex rd => Sys2Proof.Machine.execFromhex rd s
  | .tohex rs1 => Sys2Proof.Machine.execTohex rs1 s
  -- 42_shift.md
  | .shl rd => Sys2Proof.Machine.execShl rd s
  | .shr rd => Sys2Proof.Machine.execShr rd s
  -- 43_add_narrow.md
  | .add rd rs1 rs2 => Sys2Proof.Machine.execAdd rd rs1 rs2 s
  | .mul rd rs1 rs2 => Sys2Proof.Machine.execMul rd rs1 rs2 s
  | .tou8 rs1 => Sys2Proof.Machine.execTou8 rs1 s
  | .tou32 rs1 => Sys2Proof.Machine.execTou32 rs1 s
  | .tou64 rs1 => Sys2Proof.Machine.execTou64 rs1 s
  | .getbyte rs1 => Sys2Proof.Machine.execGetbyte rs1 s
  | .asbytes rs1 => Sys2Proof.Machine.execAsbytes rs1 s

end Sys2Proof.Machine
end

