-- ==== Sys2Proof/Machine/Window.lean ====
section
/-! DEFINITION. The host register window (10_state.md R30 to R39; 20_memory.md R64, R66 to R69): which register an offset
names, what a read returns and what a write of any register but CMD stores. -/

namespace Sys2Proof.Machine

/-- The registers of the window map (R30). `iobuf m` is the word of bytes 4m..4m+3, m in 0..16. -/
inductive WindowReg where
  | cmd | status | opaLo | opaHi | resLo | resHi | iolen | id | config
  | iobuf (m : Fin 17)
  | reserved
  deriving DecidableEq, Repr

/-- The register at a word offset of the window (R30); 0x24..0x3C and 0x84..0xFC are reserved. -/
def regAt (off : Nat) : WindowReg :=
  match off with
  | 0x00 => .cmd
  | 0x04 => .status
  | 0x08 => .opaLo
  | 0x0C => .opaHi
  | 0x10 => .resLo
  | 0x14 => .resHi
  | 0x18 => .iolen
  | 0x1C => .id
  | 0x20 => .config
  | off => if h : 0x40 ≤ off ∧ (off - 0x40) / 4 < 17 then .iobuf ⟨(off - 0x40) / 4, h.2⟩ else .reserved

/-- CONFIG: NUM_VREGS, IOBUF_BYTES, VALUE_BYTES and the spec version (R34). -/
def configWord (n : Nat) : Word :=
  BitVec.ofNat 8 Config.specVersion ++ BitVec.ofNat 8 Config.valueBytes ++ BitVec.ofNat 8 Config.ioBufBytes ++ 0#3
    ++ BitVec.ofNat 5 n

/-- The word a read returns; reads change nothing (R31 to R39; 20_memory.md R68). -/
def readReg (s : State) : WindowReg → Word
  | .cmd => s.cmd
  | .status => statusWord s.status
  | .opaLo => s.opa.extractLsb' 0 32
  | .opaHi => s.opa.extractLsb' 32 32
  | .resLo => s.res.extractLsb' 0 32
  | .resHi => s.res.extractLsb' 32 32
  | .iolen => s.iolen.zeroExtend 32
  | .id => Config.idConstant
  | .config => configWord s.numVRegs
  | .iobuf m => wordOfBytes (s.iobuf.read (4 * m)) (s.iobuf.read (4 * m + 1)) (s.iobuf.read (4 * m + 2)) (s.iobuf.read (4 * m + 3))
  | .reserved => 0#32

/-- What a write stores, CMD's side effect apart (`perform` runs the command); a write to a read-only or reserved word is
ignored (R31, R35, R37, R38, R39). -/
def storeReg (s : State) (r : WindowReg) (w : Word) : State :=
  match r with
  | .cmd => { s with cmd := w }
  | .opaLo => { s with opa := s.opa.extractLsb' 32 32 ++ w }
  | .opaHi => { s with opa := w ++ s.opa.extractLsb' 0 32 }
  | .iolen => { s with iolen := w.extractLsb' 0 16 }
  | .iobuf m => { s with iobuf := s.iobuf.writeBytes (4 * m) [wordByte w 0, wordByte w 1, wordByte w 2, wordByte w 3] }
  | .status => s
  | .resLo => s
  | .resHi => s
  | .id => s
  | .config => s
  | .reserved => s

/-- The window offset of a host address, if the address lies in the window; where the window sits is the platform's choice
(R30; 20_memory.md R69). -/
def windowOffset (addr : Nat) : Option Nat :=
  if Config.windowBase ≤ addr ∧ addr - Config.windowBase < 0x100 then some (addr - Config.windowBase) else none

end Sys2Proof.Machine
end

