-- ==== Sys2Proof/Machine/Access.lean ====
section
/-! DEFINITION. What the block does with one host access (10_state.md R31; 30_encoding.md R83; 20_memory.md R66) or with the
platform's reset (70_reset_and_hazards.md R230). -/

namespace Sys2Proof.Machine

/-- `execute(w)` (R83): the two decode checks report ILLEGAL, then the command runs. -/
def execute (w : Word) (s : State) : Host.Outcome State Fault Refusal :=
  match decode w with
  | .error .reservedOpcode => .next (raise (opField w) .illegal causeReservedOpcode s)
  | .error .nonzeroField => .next (raise (opField w) .illegal causeNonzeroField s)
  | .ok i => exec i s

/-- The accesses the block defines: 32 bits wide, at a multiple of 4 (20_memory.md R66), inside the window (R69). -/
def checkedAccess (off width : Nat) (run : Host.Outcome State Fault Refusal) : Host.Outcome State Fault Refusal :=
  if width = 4 ∧ off % 4 = 0 then (if off < 0x100 then run else .fault .outsideWindow)
  else .refused .undefinedAccess

/-- `MemRead(off, 4)`: the host gets the word; the block does not change (R68). -/
def performRead (off : Nat) (s : State) : State := { s with reads := s.reads ++ [readReg s (regAt off)] }

/-- `MemWrite(off, 4, w)`; a write of CMD stores the word and then executes it, to completion (R31). -/
def performWrite (off : Nat) (w : Word) (s : State) : Host.Outcome State Fault Refusal :=
  if regAt off = .cmd then execute w (storeReg s .cmd w) else .next (storeReg s (regAt off) w)

/-- The platform's reset: every piece of the block's state takes its R40 value; the number of registers is the block's own,
and the host's side (what it will do next, what it has read) is no state of the block (R230; DEDUCED, log entry 9). -/
def platformReset (s : State) : State :=
  { State.resetWith s.numVRegs with pending := s.pending, reads := s.reads }

/-- One event, performed completely before the next (20_memory.md R70). -/
def perform (e : HostEvent) (s : State) : Host.Outcome State Fault Refusal :=
  match e with
  | .read off width => checkedAccess off width (.next (performRead off s))
  | .write off width w => checkedAccess off width (performWrite off w s)
  | .reset => .next (platformReset s)

end Sys2Proof.Machine
end

