-- ==== Sys2Proof/Machine/Step.lean ====
section
/-! DEFINITION. One step: the block performs the host's next access (20_memory.md R70); with none waiting it holds its
state (60_exceptions.md R214). The block fetches nothing (20_memory.md R73): a command comes with a write of CMD. -/

namespace Sys2Proof.Machine

/-- One step of the block. -/
def step (s : State) : Host.Outcome State Fault Refusal :=
  match s.pending with
  | [] => .next s
  | e :: rest => perform e { s with pending := rest }

/-- `s` with a write of the command word to CMD put before the host's other accesses, so that the next step runs it
(10_state.md R31; log entry 2): the low `nbits` bits of `w`, the rest zero. -/
def State.withFetchWord (s : State) (nbits w : Nat) : State :=
  { s with pending := .write 0x00 4 (BitVec.ofNat 32 (w % 2 ^ nbits)) :: s.pending }

end Sys2Proof.Machine
end

