-- ==== Sys2Proof/Machine/HostProgram.lean ====
section
/-! DEFINITION. What a host's listing stands for (30_encoding.md R87 to R89): each command, directive and pseudo-instruction
is a list of window accesses. This is the host's side of the window; nothing here changes what a command does. -/

namespace Sys2Proof.Machine

/-- A command (R87) or a host directive (R88). -/
inductive Directive where
  /-- a command line: one write of CMD with the encoded word -/
  | cmd (i : Instr)
  | opa (n : Native)
  | iolen (n : BitVec 16)
  /-- `.io "text"`, one byte per character -/
  | io (text : List Byte)
  | iobytes (bs : List Byte)
  | rd (r : WindowReg)
  | wr (off : Nat) (w : Word)
  deriving DecidableEq, Repr

/-- The pseudo-instructions (R89). -/
inductive Pseudo where
  | li (vd : RegIdx) (n : Native)
  | lihex (vd : RegIdx) (text : List Byte)
  | shli (vd : RegIdx) (n : Native)
  | shri (vd : RegIdx) (n : Native)
  | getbytei (vs : RegIdx) (n : Native)
  | mov (vd vs : RegIdx)
  | dbl (vd : RegIdx)
  deriving DecidableEq, Repr

/-- The window offset of a named register (10_state.md R30); a reserved word has no name. -/
def regOffset : WindowReg → Option Nat
  | .cmd => some 0x00
  | .status => some 0x04
  | .opaLo => some 0x08
  | .opaHi => some 0x0C
  | .resLo => some 0x10
  | .resHi => some 0x14
  | .iolen => some 0x18
  | .id => some 0x1C
  | .config => some 0x20
  | .iobuf m => some (0x40 + 4 * m)
  | .reserved => none

/-- The word writes that put bytes into IOBUF, four a word, 0 past the end, then the length into IOLEN (R88). -/
def ioWrites (bs : List Byte) : List HostEvent :=
  (List.range ((bs.length + 3) / 4)).map (fun m =>
      HostEvent.write (0x40 + 4 * m) 4
        (wordOfBytes (bs.getD (4 * m) 0#8) (bs.getD (4 * m + 1) 0#8) (bs.getD (4 * m + 2) 0#8) (bs.getD (4 * m + 3) 0#8)))
    ++ [HostEvent.write 0x18 4 (BitVec.ofNat 32 bs.length)]

/-- The accesses a directive stands for (R87, R88); none for more than 66 bytes or a register with no name. -/
def Directive.accesses : Directive → Option (List HostEvent)
  | .cmd i => some [.write 0x00 4 (encode i)]
  | .opa n => some [.write 0x08 4 (n.extractLsb' 0 32), .write 0x0C 4 (n.extractLsb' 32 32)]
  | .iolen n => some [.write 0x18 4 (n.zeroExtend 32)]
  | .io text => if text.length ≤ Config.ioBufBytes then some (ioWrites text) else none
  | .iobytes bs => if bs.length ≤ Config.ioBufBytes then some (ioWrites bs) else none
  | .rd r => (regOffset r).map (fun off => [.read off 4])
  | .wr off w => some [.write off 4 w]

/-- The expansion of a pseudo-instruction (R89). -/
def Pseudo.expand : Pseudo → List Directive
  | .li vd n => [.opa n, .cmd (.fromu64 vd)]
  | .lihex vd text => [.io text, .cmd (.fromhex vd)]
  | .shli vd n => [.opa n, .cmd (.shl vd)]
  | .shri vd n => [.opa n, .cmd (.shr vd)]
  | .getbytei vs n => [.opa n, .cmd (.getbyte vs)]
  | .mov vd vs => [.cmd (.asbytes vs), .cmd (.fromslice vd)]
  | .dbl vd => [.cmd (.add vd vd vd)]

/-- The accesses of a list of directives, in order. -/
def accessesOf : List Directive → Option (List HostEvent)
  | [] => some []
  | d :: ds =>
    match d.accesses, accessesOf ds with
    | some es, some rest => some (es ++ rest)
    | _, _ => none

end Sys2Proof.Machine
end

