-- ==== Sys2Proof/Machine/Assembler.lean ====
section
/-! DEFINITION. The assembler's lines (30_encoding.md R87 to R89): from one line of text to the directives it stands for.
Where the spec gives no text form (how a number is written, spaces, a `;` inside quotes) the choice is the model's:
DESIGN CHOICE, log entry 8. -/

namespace Sys2Proof.Machine

/-- Why a line is refused (R87: "refuses an operand it cannot encode"). -/
inductive AsmError where
  | unknownName
  | badOperands
  deriving DecidableEq, Repr

/-- The canonical spelling of a command (R82, R87). -/
def mnemonic : Op → List Char
  | .zero => "ZERO".toList
  | .one => "ONE".toList
  | .fromu8 => "FROMU8".toList
  | .fromu32 => "FROMU32".toList
  | .fromu64 => "FROMU64".toList
  | .fromslice => "FROMSLICE".toList
  | .fromhex => "FROMHEX".toList
  | .tohex => "TOHEX".toList
  | .shl => "SHL".toList
  | .shr => "SHR".toList
  | .add => "ADD".toList
  | .mul => "MUL".toList
  | .tou8 => "TOU8".toList
  | .tou32 => "TOU32".toList
  | .tou64 => "TOU64".toList
  | .getbyte => "GETBYTE".toList
  | .asbytes => "ASBYTES".toList

/-- Drop the comment: from the first `;` outside quotes to the end of the line (R87). -/
def dropComment (quoted : Bool) : List Char → List Char
  | [] => []
  | c :: cs =>
    if c = ';' && !quoted then []
    else c :: dropComment (if c = '"' then !quoted else quoted) cs

/-- A space or a tab. -/
def isBlank (c : Char) : Bool := c == ' ' || c == '\t'

/-- Without the blanks at both ends. -/
def trimBlanks (cs : List Char) : List Char := ((cs.dropWhile isBlank).reverse.dropWhile isBlank).reverse

/-- The comma-separated operands, trimmed; no operand for an empty text. -/
def operands (cs : List Char) : List (List Char) :=
  if trimBlanks cs = [] then [] else (cs.splitOn ',').map trimBlanks

/-- The value of a digit in a base of at most 16. -/
def digitOf (base : Nat) (c : Char) : Option Nat :=
  let n := c.toNat
  let d := if 48 ≤ n ∧ n ≤ 57 then n - 48 else if 97 ≤ n ∧ n ≤ 102 then n - 87 else if 65 ≤ n ∧ n ≤ 70 then n - 55 else 16
  if d < base then some d else none

/-- A digit string's number, most significant digit first. -/
def digitsValue (base acc : Nat) : List Char → Option Nat
  | [] => some acc
  | c :: cs =>
    match digitOf base c with
    | some d => digitsValue base (acc * base + d) cs
    | none => none

/-- A number below `bound`: decimal, or hexadecimal after "0x". -/
def number (bound : Nat) (cs : List Char) : Option Nat :=
  let v := match cs with
    | [] => none
    | '0' :: 'x' :: c :: t => digitsValue 16 0 (c :: t)
    | t => digitsValue 10 0 t
  match v with
  | some n => if n < bound then some n else none
  | none => none

/-- `v0` .. `v15` (R87). -/
def register : List Char → Option RegIdx
  | ['v', d] => (digitOf 10 d).map (BitVec.ofNat 4)
  | ['v', '1', d] => (digitOf 6 d).map (fun n => BitVec.ofNat 4 (10 + n))
  | _ => none

/-- How many register operands a command is written with (R82, R87). -/
def arity : Op → Nat
  | .zero | .one | .fromu8 | .fromu32 | .fromu64 | .fromslice | .fromhex => 1
  | .tohex | .shl | .shr => 1
  | .add | .mul => 3
  | .tou8 | .tou32 | .tou64 | .getbyte | .asbytes => 1

/-- A command from its register operands, in the order rd, rs1, rs2; a missing or extra operand is refused (R87). -/
def commandOf (o : Op) (rs : List RegIdx) : Option Instr :=
  match rs with
  | [r] => if arity o = 1 then some (instrOf o r r r) else none
  | [rd, rs1, rs2] => if arity o = 3 then some (instrOf o rd rs1 rs2) else none
  | _ => none

/-- All of a list's answers, or none. -/
def allOf {α β : Type} (f : α → Option β) : List α → Option (List β)
  | [] => some []
  | a :: as =>
    match f a, allOf f as with
    | some b, some bs => some (b :: bs)
    | _, _ => none

/-- An ASCII text between double quotes, one byte per character (R88, R120). -/
def quotedText (cs : List Char) : Option (List Byte) :=
  match cs, cs.getLast? with
  | '"' :: c :: t, some '"' =>
    allOf (fun ch : Char => if ch.toNat < 128 ∧ ch ≠ '"' then some (BitVec.ofNat 8 ch.toNat) else none) (c :: t).dropLast
  | _, _ => none

/-- The register names of `.rd` (10_state.md R30). R30 names the words of IOBUF IOBUF0 to IOBUF16; that the number after
IOBUF may be written in any form `number` reads (IOBUF0x10, IOBUF007) is the model's choice: DESIGN CHOICE, log entry 8. -/
def windowName (cs : List Char) : Option WindowReg :=
  if cs = "CMD".toList then some .cmd
  else if cs = "STATUS".toList then some .status
  else if cs = "OPA_LO".toList then some .opaLo
  else if cs = "OPA_HI".toList then some .opaHi
  else if cs = "RES_LO".toList then some .resLo
  else if cs = "RES_HI".toList then some .resHi
  else if cs = "IOLEN".toList then some .iolen
  else if cs = "ID".toList then some .id
  else if cs = "CONFIG".toList then some .config
  else if cs.take 5 = "IOBUF".toList then
    match number 17 (cs.drop 5) with
    | some m => if h : m < 17 then some (.iobuf ⟨m, h⟩) else none
    | none => none
  else none

/-- A host directive (R88), by its name and the text after it. -/
def directiveLine (name rest : List Char) : Option (Option Directive) :=
  if name = ".opa".toList then some ((number (2 ^ 64) rest).map (fun n => .opa (BitVec.ofNat 64 n)))
  else if name = ".iolen".toList then some ((number (2 ^ 16) rest).map (fun n => .iolen (BitVec.ofNat 16 n)))
  else if name = ".io".toList then some ((quotedText rest).map .io)
  else if name = ".iobytes".toList then
    some ((allOf (number 256) (operands rest)).map (fun bs => .iobytes (bs.map (BitVec.ofNat 8))))
  else if name = ".rd".toList then some ((windowName rest).map .rd)
  else if name = ".wr".toList then
    some (match operands rest with
      | [o, w] =>
        match number 256 o, number (2 ^ 32) w with
        | some o, some w => some (.wr o (BitVec.ofNat 32 w))
        | _, _ => none
      | _ => none)
  else none

/-- A register and a 64-bit number, the operands of LI, SHLI, SHRI and GETBYTEI. -/
def regAndNumber (f : RegIdx → Native → Pseudo) (ops : List (List Char)) : Option Pseudo :=
  match ops with
  | [r, n] =>
    match register r, number (2 ^ 64) n with
    | some r, some n => some (f r (BitVec.ofNat 64 n))
    | _, _ => none
  | _ => none

/-- A pseudo-instruction (R89), by its upper-case name and the text after it. -/
def pseudoLine (name rest : List Char) : Option (Option Pseudo) :=
  if name = "LI".toList then some (regAndNumber .li (operands rest))
  else if name = "SHLI".toList then some (regAndNumber .shli (operands rest))
  else if name = "SHRI".toList then some (regAndNumber .shri (operands rest))
  else if name = "GETBYTEI".toList then some (regAndNumber .getbytei (operands rest))
  else if name = "LIHEX".toList then
    some (match register (trimBlanks (rest.takeWhile (· != ','))),
        quotedText (trimBlanks ((rest.dropWhile (· != ',')).drop 1)) with
      | some r, some t => some (.lihex r t)
      | _, _ => none)
  else if name = "MOV".toList then
    some (match allOf register (operands rest) with
      | some [vd, vs] => some (.mov vd vs)
      | _ => none)
  else if name = "DBL".toList then
    some (match allOf register (operands rest) with
      | some [vd] => some (.dbl vd)
      | _ => none)
  else none

/-- The directives one line of a listing stands for (R87 to R89); an empty or comment-only line stands for none.
Mnemonics are case-insensitive. -/
def assembleLine (line : List Char) : Except AsmError (List Directive) :=
  let text := trimBlanks (dropComment false line)
  let name := text.takeWhile (fun c => !isBlank c)
  let rest := trimBlanks (text.dropWhile (fun c => !isBlank c))
  let upper := name.map Char.toUpper
  if name = [] then .ok []
  else
    match allOps.find? (fun o => mnemonic o == upper) with
    | some o =>
      match (allOf register (operands rest)).bind (commandOf o) with
      | some i => .ok [.cmd i]
      | none => .error .badOperands
    | none =>
      match pseudoLine upper rest with
      | some (some p) => .ok p.expand
      | some none => .error .badOperands
      | none =>
        match directiveLine name rest with
        | some (some d) => .ok [d]
        | some none => .error .badOperands
        | none => .error .unknownName

end Sys2Proof.Machine
end

