-- ==== Sys2Proof/Safety.lean ====
section
/-! DEFINITION. What counts as a safe state and a safe run: the terms the statements use. -/

namespace Sys2Proof.Machine

/-- STATUS reports a legal outcome: the kind fits the command that raises it (60_exceptions.md R200) and the cause fits the
kind (R201). Opcodes: FROMSLICE 0x06, FROMHEX 0x10, MUL 0x31, TOU8 0x40, TOU32 0x41, TOU64 0x42, GETBYTE 0x43. -/
def Status.legal (st : Status) : Bool :=
  match st.err with
  | .none => st.cause == 0#4
  | .construction =>
    (st.opc == 0x06#8 && st.cause == 4#4)
      || (st.opc == 0x10#8 && (st.cause == 1#4 || st.cause == 2#4 || st.cause == 3#4))
  | .index => st.opc == 0x43#8 && st.cause == 0#4
  | .overflow => (st.opc == 0x40#8 || st.opc == 0x41#8 || st.opc == 0x42#8) && st.cause == 0#4
  | .unimplemented => st.opc == 0x31#8 && st.cause == 0#4
  | .illegal =>
    if opOfCode st.opc = none then st.cause == 1#4 else (st.cause == 2#4 || st.cause == 3#4)

/-- The invariant of the block: a legal number of registers (10_state.md R20), IOBUF in canonical form, a legal report
(60_exceptions.md R200, R201), STICKY set whenever the report is a failure (R205), and OPC the opcode bits of the last word
written to CMD (10_state.md R28, R31). -/
structure State.Inv (s : State) : Prop where
  numVRegs : 1 ≤ s.vregs.length ∧ s.vregs.length ≤ 16
  iobuf : s.iobuf.wf = true
  legal : s.status.legal = true
  sticky : s.status.err ≠ .none → s.status.sticky = true
  opc : s.status.opc = s.cmd.extractLsb' 0 8

/-- The host access is one the block defines (20_memory.md R66, R69); a reset always is (70_reset_and_hazards.md R230). -/
def HostEvent.defined : HostEvent → Bool
  | .read off width => width == 4 && off % 4 == 0 && decide (off < 0x100)
  | .write off width _ => width == 4 && off % 4 == 0 && decide (off < 0x100)
  | .reset => true

/-- A host that issues only accesses the block defines: the premise under which a run never stops. -/
def State.hostDefined (s : State) : Bool := s.pending.all HostEvent.defined

end Sys2Proof.Machine
end

