-- ==== Sys2Proof/Certificates/Slice0/Obligations.lean ====
section
/-! DEFINITION. The statements for the provers, in the terms of the numbered rules of spec/. A state's value register is read
as `s.getV r`; IOBUF's byte k as `s.iobuf.read k`; a report is written out as ⟨ERR, CAUSE, OPC, STICKY⟩. -/

open Sys2Proof Sys2Proof.Machine

/-! Command words (30_encoding.md) -/

/-- Decoding inverts encoding, for every command and every value of every register field: no bit of a field is dropped
(R80 to R82). -/
def Obligations.DecodeOfEncodeIsTheCommand : Prop :=
  ∀ i : Instr, decode (encode i) = .ok i

/-- A command has one word only: a word that decodes is the encoding of what it decodes to (R81, R84: unused fields are 0). -/
def Obligations.EncodeOfDecodeIsTheWord : Prop :=
  ∀ (w : Word) (i : Instr), decode w = .ok i → encode i = w

/-- R82: "a word w is that command when (w & mask) == match", with the register fields of R81, for all 17 rows. -/
def Obligations.MatchAndMaskSelectTheCommand : Prop :=
  ∀ w : Word,
    let rd : RegIdx := w.extractLsb' 8 4
    let rs1 : RegIdx := w.extractLsb' 12 4
    let rs2 : RegIdx := w.extractLsb' 16 4
    (w &&& 0xFFFFF0FF#32 = 0x00000001#32 ↔ decode w = .ok (.zero rd)) ∧
    (w &&& 0xFFFFF0FF#32 = 0x00000002#32 ↔ decode w = .ok (.one rd)) ∧
    (w &&& 0xFFFFF0FF#32 = 0x00000003#32 ↔ decode w = .ok (.fromu8 rd)) ∧
    (w &&& 0xFFFFF0FF#32 = 0x00000004#32 ↔ decode w = .ok (.fromu32 rd)) ∧
    (w &&& 0xFFFFF0FF#32 = 0x00000005#32 ↔ decode w = .ok (.fromu64 rd)) ∧
    (w &&& 0xFFFFF0FF#32 = 0x00000006#32 ↔ decode w = .ok (.fromslice rd)) ∧
    (w &&& 0xFFFFF0FF#32 = 0x00000010#32 ↔ decode w = .ok (.fromhex rd)) ∧
    (w &&& 0xFFFF0FFF#32 = 0x00000011#32 ↔ decode w = .ok (.tohex rs1)) ∧
    (w &&& 0xFFFFF0FF#32 = 0x00000020#32 ↔ decode w = .ok (.shl rd)) ∧
    (w &&& 0xFFFFF0FF#32 = 0x00000021#32 ↔ decode w = .ok (.shr rd)) ∧
    (w &&& 0xFFF000FF#32 = 0x00000030#32 ↔ decode w = .ok (.add rd rs1 rs2)) ∧
    (w &&& 0xFFF000FF#32 = 0x00000031#32 ↔ decode w = .ok (.mul rd rs1 rs2)) ∧
    (w &&& 0xFFFF0FFF#32 = 0x00000040#32 ↔ decode w = .ok (.tou8 rs1)) ∧
    (w &&& 0xFFFF0FFF#32 = 0x00000041#32 ↔ decode w = .ok (.tou32 rs1)) ∧
    (w &&& 0xFFFF0FFF#32 = 0x00000042#32 ↔ decode w = .ok (.tou64 rs1)) ∧
    (w &&& 0xFFFF0FFF#32 = 0x00000043#32 ↔ decode w = .ok (.getbyte rs1)) ∧
    (w &&& 0xFFFF0FFF#32 = 0x00000044#32 ↔ decode w = .ok (.asbytes rs1))

/-- R84: the three kinds of illegal word, each changing no state but STATUS (CMD holds the word, the write is consumed). -/
def Obligations.IllegalWordsChangeOnlyStatus : Prop :=
  ∀ (s : State) (w : Word) (rest : List HostEvent), s.pending = .write 0x00 4 w :: rest →
    let op := (w.extractLsb' 0 8).toNat
    let rd := (w.extractLsb' 8 4).toNat
    let rs1 := (w.extractLsb' 12 4).toNat
    let rs2 := (w.extractLsb' 16 4).toNat
    let n := s.vregs.length
    let onlyRd := (1 ≤ op ∧ op ≤ 6) ∨ op = 0x10 ∨ op = 0x20 ∨ op = 0x21
    let onlyRs1 := op = 0x11 ∨ (0x40 ≤ op ∧ op ≤ 0x44)
    let all3 := op = 0x30 ∨ op = 0x31
    let nonzero := (onlyRd ∧ (rs1 ≠ 0 ∨ rs2 ≠ 0)) ∨ (onlyRs1 ∧ (rd ≠ 0 ∨ rs2 ≠ 0)) ∨
      ((onlyRd ∨ onlyRs1 ∨ all3) ∧ w.extractLsb' 20 12 ≠ 0)
    let illegal (cause : BitVec 4) : Prop :=
      step s = .next { s with pending := rest, cmd := w, status := ⟨.illegal, cause, w.extractLsb' 0 8, true⟩ }
    (op = 0 ∨ (0x07 ≤ op ∧ op ≤ 0x0F) ∨ (0x12 ≤ op ∧ op ≤ 0x1F) ∨ (0x22 ≤ op ∧ op ≤ 0x2F) ∨ (0x32 ≤ op ∧ op ≤ 0x3F)
      ∨ 0x45 ≤ op → illegal 1#4) ∧
    (nonzero → illegal 2#4) ∧
    (¬ nonzero → (onlyRd ∧ n ≤ rd) ∨ (onlyRs1 ∧ n ≤ rs1) ∨ (all3 ∧ (n ≤ rd ∨ n ≤ rs1 ∨ n ≤ rs2)) → illegal 3#4)

/-- R90: the worked encodings, and the two illegal words with their causes. -/
def Obligations.WorkedEncodingsDecode : Prop :=
  (encode (.add 0 1 2) = 0x00021030#32 ∧ decode 0x00021030#32 = .ok (.add 0 1 2)) ∧
  (encode (.fromhex 3) = 0x00000310#32 ∧ decode 0x00000310#32 = .ok (.fromhex 3)) ∧
  (encode (.tohex 2) = 0x00002011#32 ∧ decode 0x00002011#32 = .ok (.tohex 2)) ∧
  (encode (.shl 1) = 0x00000120#32 ∧ decode 0x00000120#32 = .ok (.shl 1)) ∧
  (encode (.getbyte 3) = 0x00003043#32 ∧ decode 0x00003043#32 = .ok (.getbyte 3)) ∧
  (encode (.mul 0 0 0) = 0x00000031#32 ∧ decode 0x00000031#32 = .ok (.mul 0 0 0)) ∧
  (∀ s : State, execute 0x00001001#32 s = .next { s with status := ⟨.illegal, 2#4, 0x01#8, true⟩ }) ∧
  (∀ s : State, s.vregs.length = 4 →
    execute 0x00000501#32 s = .next { s with status := ⟨.illegal, 3#4, 0x01#8, true⟩ })

/-- A step runs the decoded command: the word is stored in CMD, the access is consumed, and the step is `exec` of the
command in that state (10_state.md R31; R83). -/
def Obligations.StepRunsTheDecodedCommand : Prop :=
  ∀ (s : State) (w : Word) (rest : List HostEvent) (i : Instr),
    s.pending = .write 0x00 4 w :: rest → decode w = .ok i → step s = exec i { s with pending := rest, cmd := w }

/-- The third check of R83: a command with a used register field that names no register reports ILLEGAL, REG_RANGE, and
does nothing else, whatever its own errors would be. -/
def Obligations.RegisterOutOfRangeIsIllegal : Prop :=
  ∀ (i : Instr) (s : State), (∃ r ∈ i.regs, s.vregs.length ≤ r.toNat) →
    exec i s = .next { s with status := ⟨.illegal, 3#4, (encode i).extractLsb' 0 8, true⟩ }

/-! Construction (40_construction.md) -/

/-- R101, R102: ZERO writes 0 and ONE writes 1; success report; encodings and no other effect. -/
def Obligations.ZeroAndOneWriteTheirConstant : Prop :=
  ∀ (s : State) (rd : RegIdx), rd.toNat < s.vregs.length →
    exec (.zero rd) s =
      .next { s with vregs := s.vregs.set rd.toNat 0#256, status := ⟨.none, 0#4, 0x01#8, s.status.sticky⟩ } ∧
    exec (.one rd) s =
      .next { s with vregs := s.vregs.set rd.toNat 1#256, status := ⟨.none, 0#4, 0x02#8, s.status.sticky⟩ } ∧
    (∀ w : Word, decode w = .ok (.zero rd) ↔ w &&& 0xFFFFF0FF#32 = 0x00000001#32 ∧ w.extractLsb' 8 4 = rd) ∧
    (∀ w : Word, decode w = .ok (.one rd) ↔ w &&& 0xFFFFF0FF#32 = 0x00000002#32 ∧ w.extractLsb' 8 4 = rd)

/-- R103, R104, R105: the native constructors zero-extend the low 8, 32 or 64 bits of OPA; higher bits are ignored. -/
def Obligations.NativeConstructorsZeroExtend : Prop :=
  ∀ (s : State) (rd : RegIdx), rd.toNat < s.vregs.length →
    exec (.fromu8 rd) s =
      .next { s with
        vregs := s.vregs.set rd.toNat ((s.opa.extractLsb' 0 8).zeroExtend 256)
        status := ⟨.none, 0#4, 0x03#8, s.status.sticky⟩ } ∧
    exec (.fromu32 rd) s =
      .next { s with
        vregs := s.vregs.set rd.toNat ((s.opa.extractLsb' 0 32).zeroExtend 256)
        status := ⟨.none, 0#4, 0x04#8, s.status.sticky⟩ } ∧
    exec (.fromu64 rd) s =
      .next { s with
        vregs := s.vregs.set rd.toNat (s.opa.zeroExtend 256)
        status := ⟨.none, 0#4, 0x05#8, s.status.sticky⟩ } ∧
    (∀ w : Word, decode w = .ok (.fromu8 rd) ↔ w &&& 0xFFFFF0FF#32 = 0x00000003#32 ∧ w.extractLsb' 8 4 = rd) ∧
    (∀ w : Word, decode w = .ok (.fromu32 rd) ↔ w &&& 0xFFFFF0FF#32 = 0x00000004#32 ∧ w.extractLsb' 8 4 = rd) ∧
    (∀ w : Word, decode w = .ok (.fromu64 rd) ↔ w &&& 0xFFFFF0FF#32 = 0x00000005#32 ∧ w.extractLsb' 8 4 = rd)

/-- R106: byte i of the slice becomes byte i of the value, the high bytes zero; a slice longer than 32 bytes fails with
SLICE_TOO_WIDE and changes nothing but STATUS. -/
def Obligations.FromsliceBuildsFromTheSlice : Prop :=
  ∀ (s : State) (rd : RegIdx), rd.toNat < s.vregs.length →
    (s.iolen.toNat ≤ 32 →
      ∃ v : Value, (∀ i < 32, byteAt v i = if i < s.iolen.toNat then s.iobuf.read i else 0#8) ∧
        exec (.fromslice rd) s =
          .next { s with vregs := s.vregs.set rd.toNat v, status := ⟨.none, 0#4, 0x06#8, s.status.sticky⟩ }) ∧
    (32 < s.iolen.toNat →
      exec (.fromslice rd) s = .next { s with status := ⟨.construction, 4#4, 0x06#8, true⟩ }) ∧
    (∀ w : Word, decode w = .ok (.fromslice rd) ↔ w &&& 0xFFFFF0FF#32 = 0x00000006#32 ∧ w.extractLsb' 8 4 = rd)

/-- R107: after FROMSLICE vD then ASBYTES vD, `IOBUF[0 .. n-1]` equals the slice and `IOBUF[n .. 31]` are 0. -/
def Obligations.SliceComesBackFromAsbytes : Prop :=
  ∀ (s : State) (rd : RegIdx), s.iobuf.wf = true → rd.toNat < s.vregs.length → s.iolen.toNat ≤ 32 →
    ∃ t u : State, exec (.fromslice rd) s = .next t ∧ exec (.asbytes rd) t = .next u ∧
      (∀ k < s.iolen.toNat, u.iobuf.read k = s.iobuf.read k) ∧
      (∀ k, s.iolen.toNat ≤ k → k < 32 → u.iobuf.read k = 0#8)

/-! Hexadecimal codec (41_hex_codec.md) -/

/-- R120's two maps: `hexval` on all 256 byte values, `hexchar` on 0..15. -/
def Obligations.HexDigitsAreTheSixteenInTwoCases : Prop :=
  (∀ c : Byte,
    hexval c =
      if 0x30 ≤ c.toNat ∧ c.toNat ≤ 0x39 then some (c.toNat - 0x30)
      else if 0x61 ≤ c.toNat ∧ c.toNat ≤ 0x66 then some (c.toNat - 0x61 + 10)
      else if 0x41 ≤ c.toNat ∧ c.toNat ≤ 0x46 then some (c.toNat - 0x41 + 10)
      else none) ∧
  (∀ n : BitVec 4, (hexchar n).toNat = if n.toNat ≤ 9 then 0x30 + n.toNat else 0x61 + n.toNat - 10) ∧
  (∀ n : BitVec 4, hexval (hexchar n) = some n.toNat)

/-- FROMHEX accepts an optional "0x" or "0X" and 1 to 64 hex digits, and writes the number they spell in base 16, most
significant digit first; odd digit counts and both cases included (R121). Of at most 64 digits nothing is lost: the register's
number is the number they spell. -/
def Obligations.FromhexReadsTheNumber : Prop :=
  ∀ (s : State) (rd : RegIdx) (pre ds : List Byte), rd.toNat < s.vregs.length →
    (pre = [] ∨ pre = [0x30#8, 0x78#8] ∨ pre = [0x30#8, 0x58#8]) →
    (∀ c ∈ ds, (hexval c).isSome = true) → 1 ≤ ds.length → ds.length ≤ 64 →
    s.iolen.toNat = pre.length + ds.length →
    (∀ k < pre.length + ds.length, s.iobuf.read k = (pre ++ ds).getD k 0#8) →
    exec (.fromhex rd) s =
      .next { s with
        vregs := s.vregs.set rd.toNat (BitVec.ofNat 256 (ds.foldl (fun a c => a * 16 + (hexval c).getD 0) 0))
        status := ⟨.none, 0#4, 0x10#8, s.status.sticky⟩ } ∧
    ∃ t : State, exec (.fromhex rd) s = .next t ∧
      (t.getV rd).toNat = ds.foldl (fun a c => a * 16 + (hexval c).getD 0) 0

/-- The texts TOHEX does not render, shorter than 64 digits or without the prefix: for every n in 1..64, FROMHEX reads every
value below 16^n from its n digits of R120 (`hexchar`, most significant first), with or without the prefix (R120, R121). -/
def Obligations.FromhexReadsAValueFromItsDigits : Prop :=
  ∀ (s : State) (rd : RegIdx) (pre : List Byte) (v : Value) (n : Nat), rd.toNat < s.vregs.length →
    (pre = [] ∨ pre = [0x30#8, 0x78#8] ∨ pre = [0x30#8, 0x58#8]) → 1 ≤ n → n ≤ 64 → v.toNat < 16 ^ n →
    s.iolen.toNat = pre.length + n → (∀ k < pre.length, s.iobuf.read k = pre.getD k 0#8) →
    (∀ k < n, s.iobuf.read (pre.length + k) = hexchar (BitVec.ofNat 4 (v.toNat / 16 ^ (n - 1 - k)))) →
    exec (.fromhex rd) s =
      .next { s with vregs := s.vregs.set rd.toNat v, status := ⟨.none, 0#4, 0x10#8, s.status.sticky⟩ }

/-- R121: FROMHEX's seven steps. With p the length of the prefix (at most one, at the start only), the checks in their order,
each failure changing nothing but STATUS; and of a legal text, byte j of the value is the two digits at 2j + 1 and 2j places
from its end, a digit before the first counting as 0 (odd digit counts, and the zeroed high bytes). -/
def Obligations.FromhexFollowsItsSteps : Prop :=
  ∀ (s : State) (rd : RegIdx), rd.toNat < s.vregs.length →
    let L := s.iolen.toNat
    let p := if 2 ≤ L ∧ s.iobuf.read 0 = 0x30#8 ∧ (s.iobuf.read 1 = 0x78#8 ∨ s.iobuf.read 1 = 0x58#8) then 2 else 0
    let r := L - p
    let digit (k : Nat) : Nat := if k < r then (hexval (s.iobuf.read (L - 1 - k))).getD 0 else 0
    let fails (cause : BitVec 4) : Prop :=
      exec (.fromhex rd) s = .next { s with status := ⟨.construction, cause, 0x10#8, true⟩ }
    (66 < L → fails 3#4) ∧
    (L ≤ 66 → r = 0 → fails 1#4) ∧
    (L ≤ 66 → 64 < r → fails 3#4) ∧
    (L ≤ 66 → 1 ≤ r → r ≤ 64 → (∃ k, p ≤ k ∧ k < L ∧ hexval (s.iobuf.read k) = none) → fails 2#4) ∧
    (L ≤ 66 → 1 ≤ r → r ≤ 64 → (∀ k, p ≤ k → k < L → hexval (s.iobuf.read k) ≠ none) →
      ∃ v : Value, (∀ j < 32, (byteAt v j).toNat = digit (2 * j + 1) * 16 + digit (2 * j)) ∧
        exec (.fromhex rd) s =
          .next { s with vregs := s.vregs.set rd.toNat v, status := ⟨.none, 0#4, 0x10#8, s.status.sticky⟩ }) ∧
    (∀ w : Word, decode w = .ok (.fromhex rd) ↔ w &&& 0xFFFFF0FF#32 = 0x00000010#32 ∧ w.extractLsb' 8 4 = rd)

/-- R122: TOHEX writes "0x" and 64 lowercase digits, most significant byte first, sets IOLEN to 66 and changes nothing else. -/
def Obligations.TohexRendersCanonicalText : Prop :=
  ∀ (s : State) (rs1 : RegIdx), s.iobuf.wf = true → rs1.toNat < s.vregs.length →
    (∀ w : Word, decode w = .ok (.tohex rs1) ↔ w &&& 0xFFFF0FFF#32 = 0x00000011#32 ∧ w.extractLsb' 12 4 = rs1) ∧
    ∃ m : Memory, m.wf = true ∧
      exec (.tohex rs1) s =
        .next { s with iobuf := m, iolen := 66#16, status := ⟨.none, 0#4, 0x11#8, s.status.sticky⟩ } ∧
      m.read 0 = 0x30#8 ∧ m.read 1 = 0x78#8 ∧
      ∀ k < 32,
        m.read (2 + 2 * k) = hexchar ((byteAt (s.getV rs1) (31 - k)).extractLsb' 4 4) ∧
        m.read (3 + 2 * k) = hexchar ((byteAt (s.getV rs1) (31 - k)).extractLsb' 0 4)

/-- R123: TOHEX vS then FROMHEX vD, with nothing in between, gives V[rd] = V[rs1]. -/
def Obligations.HexTextRoundTrip : Prop :=
  ∀ (s : State) (rs1 rd : RegIdx), s.iobuf.wf = true → rs1.toNat < s.vregs.length → rd.toNat < s.vregs.length →
    ∃ t u : State, exec (.tohex rs1) s = .next t ∧ t.iolen = 66#16 ∧ exec (.fromhex rd) t = .next u ∧
      u.status.err = .none ∧ u.vregs = s.vregs.set rd.toNat (s.getV rs1)

/-- R124: for every text FROMHEX accepts, FROMHEX then TOHEX of that register gives "0x" and the 64-digit lowercase
zero-padded rendering of the text's numeric value. -/
def Obligations.AcceptedTextBecomesCanonical : Prop :=
  ∀ (s t : State) (rd : RegIdx), s.iobuf.wf = true → rd.toNat < s.vregs.length →
    exec (.fromhex rd) s = .next t → t.status.err = .none →
    ∃ (ds : List Byte) (u : State),
      (∃ pre : List Byte, (pre = [] ∨ pre = [0x30#8, 0x78#8] ∨ pre = [0x30#8, 0x58#8]) ∧
        pre.length + ds.length = s.iolen.toNat ∧ ∀ k < s.iolen.toNat, s.iobuf.read k = (pre ++ ds).getD k 0#8) ∧
      (∀ c ∈ ds, (hexval c).isSome = true) ∧
      exec (.tohex rd) t = .next u ∧ u.iolen = 66#16 ∧ u.iobuf.read 0 = 0x30#8 ∧ u.iobuf.read 1 = 0x78#8 ∧
      ∀ k < 64, u.iobuf.read (2 + k) =
        hexchar (BitVec.ofNat 4 (ds.foldl (fun a c => a * 16 + (hexval c).getD 0) 0 / 16 ^ (63 - k)))

/-! Shifts (42_shift.md) -/

/-- R144: SHL multiplies by 2^places modulo 2^256; bit k comes from bit k - places, the low bits are 0; zero for
places >= 256; nothing but `V[rd]` and STATUS changes. -/
def Obligations.ShlMultipliesByPowerOfTwo : Prop :=
  ∀ (s : State) (rd : RegIdx), rd.toNat < s.vregs.length →
    ∃ v : Value,
      exec (.shl rd) s =
        .next { s with vregs := s.vregs.set rd.toNat v, status := ⟨.none, 0#4, 0x20#8, s.status.sticky⟩ } ∧
      v.toNat = (s.getV rd).toNat * 2 ^ s.opa.toNat % 2 ^ 256 ∧
      (∀ k < 256, v.getLsbD k = (decide (s.opa.toNat ≤ k) && (s.getV rd).getLsbD (k - s.opa.toNat))) ∧
      (256 ≤ s.opa.toNat → v = 0#256)

/-- R145: SHR divides by 2^places, rounding down; zero for places >= 256; nothing but `V[rd]` and STATUS changes. -/
def Obligations.ShrDividesByPowerOfTwo : Prop :=
  ∀ (s : State) (rd : RegIdx), rd.toNat < s.vregs.length →
    ∃ v : Value,
      exec (.shr rd) s =
        .next { s with vregs := s.vregs.set rd.toNat v, status := ⟨.none, 0#4, 0x21#8, s.status.sticky⟩ } ∧
      v.toNat = (s.getV rd).toNat / 2 ^ s.opa.toNat ∧
      (256 ≤ s.opa.toNat → v = 0#256)

/-- R147: by 0 both shifts are identities; SHL by n then SHR by n gives v mod 2^(256-n) for n in 0..255; for n >= 256 both
give zero. -/
def Obligations.ShiftLeftThenRightKeepsLowBits : Prop :=
  ∀ (s : State) (rd : RegIdx), rd.toNat < s.vregs.length →
    ∃ t u r : State, exec (.shl rd) s = .next t ∧ exec (.shr rd) t = .next u ∧ exec (.shr rd) s = .next r ∧
      (s.opa = 0 → t.vregs = s.vregs ∧ r.vregs = s.vregs) ∧
      (s.opa.toNat < 256 →
        u.vregs = s.vregs.set rd.toNat (BitVec.ofNat 256 ((s.getV rd).toNat % 2 ^ (256 - s.opa.toNat)))) ∧
      (256 ≤ s.opa.toNat → t.vregs = s.vregs.set rd.toNat 0#256 ∧ r.vregs = s.vregs.set rd.toNat 0#256)

/-! Addition, multiplication, narrowing, byte access (43_add_narrow.md) -/

/-- R160: the 32 stages of the ripple-carry chain, the carry out of byte 31 discarded, both sources read before `V[rd]` is
written (any of the three registers may be the same); success report, no flag. -/
def Obligations.AddIsTheRippleCarrySum : Prop :=
  ∀ (s : State) (rd rs1 rs2 : RegIdx),
    rd.toNat < s.vregs.length → rs1.toNat < s.vregs.length → rs2.toNat < s.vregs.length →
    (∀ w : Word, decode w = .ok (.add rd rs1 rs2) ↔ w &&& 0xFFF000FF#32 = 0x00000030#32 ∧
      w.extractLsb' 8 4 = rd ∧ w.extractLsb' 12 4 = rs1 ∧ w.extractLsb' 16 4 = rs2) ∧
    ∃ (c : Nat → Nat) (v : Value), c 0 = 0 ∧
      (∀ i < 32,
        (byteAt v i).toNat = (c i + (byteAt (s.getV rs1) i).toNat + (byteAt (s.getV rs2) i).toNat) % 256 ∧
        c (i + 1) = (c i + (byteAt (s.getV rs1) i).toNat + (byteAt (s.getV rs2) i).toNat) / 256 ∧ c (i + 1) ≤ 1) ∧
      exec (.add rd rs1 rs2) s =
        .next { s with vregs := s.vregs.set rd.toNat v, status := ⟨.none, 0#4, 0x30#8, s.status.sticky⟩ }

/-- R161: ADD is (a + b) mod 2^256; hence commutative, associative, with zero its identity. -/
def Obligations.AddIsAdditionModulo : Prop :=
  ∀ (s : State) (rd rs1 rs2 : RegIdx),
    rd.toNat < s.vregs.length → rs1.toNat < s.vregs.length → rs2.toNat < s.vregs.length →
    exec (.add rd rs1 rs2) s =
      .next { s with
        vregs := s.vregs.set rd.toNat (BitVec.ofNat 256 (((s.getV rs1).toNat + (s.getV rs2).toNat) % 2 ^ 256))
        status := ⟨.none, 0#4, 0x30#8, s.status.sticky⟩ } ∧
    exec (.add rd rs1 rs2) s = exec (.add rd rs2 rs1) s ∧
    (s.getV rs2 = 0#256 → ∃ t, exec (.add rd rs1 rs2) s = .next t ∧ t.getV rd = s.getV rs1) ∧
    (∀ (p q : RegIdx), p.toNat < s.vregs.length → q.toNat < s.vregs.length → p ≠ rd → p ≠ rs1 → p ≠ rs2 →
      ∃ t u t' u', exec (.add p rs1 rs2) s = .next t ∧ exec (.add q p rd) t = .next u ∧
        exec (.add p rs2 rd) s = .next t' ∧ exec (.add q rs1 p) t' = .next u' ∧ u.getV q = u'.getV q)

/-- R163: MUL always fails with UNIMPLEMENTED and writes nothing but STATUS; a register out of range is ILLEGAL instead. -/
def Obligations.MulAlwaysFailsUnimplemented : Prop :=
  ∀ (s : State) (rd rs1 rs2 : RegIdx),
    (rd.toNat < s.vregs.length → rs1.toNat < s.vregs.length → rs2.toNat < s.vregs.length →
      exec (.mul rd rs1 rs2) s = .next { s with status := ⟨.unimplemented, 0#4, 0x31#8, true⟩ }) ∧
    (s.vregs.length ≤ rd.toNat ∨ s.vregs.length ≤ rs1.toNat ∨ s.vregs.length ≤ rs2.toNat →
      exec (.mul rd rs1 rs2) s = .next { s with status := ⟨.illegal, 3#4, 0x31#8, true⟩ }) ∧
    (∀ w : Word, decode w = .ok (.mul rd rs1 rs2) ↔ w &&& 0xFFF000FF#32 = 0x00000031#32 ∧
      w.extractLsb' 8 4 = rd ∧ w.extractLsb' 12 4 = rs1 ∧ w.extractLsb' 16 4 = rs2)

/-- R164 to R167: narrowing to N bits succeeds iff every byte at index N/8 or above is zero, and then RES is the low N bits,
zero-extended; otherwise OVERFLOW, RES and everything but STATUS unchanged. -/
def Obligations.NarrowingChecksTheHighBytes : Prop :=
  ∀ (s : State) (r : RegIdx), r.toNat < s.vregs.length →
    let high (k : Nat) : Prop := ∀ i, k ≤ i → i < 32 → byteAt (s.getV r) i = 0#8
    let good (op : BitVec 8) (x : Native) : State := { s with res := x, status := ⟨.none, 0#4, op, s.status.sticky⟩ }
    let bad (op : BitVec 8) : State := { s with status := ⟨.overflow, 0#4, op, true⟩ }
    (high 1 → exec (.tou8 r) s = .next (good 0x40#8 (((s.getV r).extractLsb' 0 8).zeroExtend 64))) ∧
    (¬ high 1 → exec (.tou8 r) s = .next (bad 0x40#8)) ∧
    (high 4 → exec (.tou32 r) s = .next (good 0x41#8 (((s.getV r).extractLsb' 0 32).zeroExtend 64))) ∧
    (¬ high 4 → exec (.tou32 r) s = .next (bad 0x41#8)) ∧
    (high 8 → exec (.tou64 r) s = .next (good 0x42#8 ((s.getV r).extractLsb' 0 64))) ∧
    (¬ high 8 → exec (.tou64 r) s = .next (bad 0x42#8)) ∧
    (∀ w : Word, decode w = .ok (.tou8 r) ↔ w &&& 0xFFFF0FFF#32 = 0x00000040#32 ∧ w.extractLsb' 12 4 = r) ∧
    (∀ w : Word, decode w = .ok (.tou32 r) ↔ w &&& 0xFFFF0FFF#32 = 0x00000041#32 ∧ w.extractLsb' 12 4 = r) ∧
    (∀ w : Word, decode w = .ok (.tou64 r) ↔ w &&& 0xFFFF0FFF#32 = 0x00000042#32 ∧ w.extractLsb' 12 4 = r)

/-- The check of R164 is a bound on the number: TOU8, TOU32, TOU64 succeed iff the value is below 2^8, 2^32, 2^64, and the
result is then the number itself. -/
def Obligations.NarrowingSucceedsIffItFits : Prop :=
  ∀ (s : State) (r : RegIdx), r.toNat < s.vregs.length →
    ∃ t8 t32 t64 : State, exec (.tou8 r) s = .next t8 ∧ exec (.tou32 r) s = .next t32 ∧ exec (.tou64 r) s = .next t64 ∧
      (t8.status.err = .none ↔ (s.getV r).toNat < 2 ^ 8) ∧ (t32.status.err = .none ↔ (s.getV r).toNat < 2 ^ 32) ∧
      (t64.status.err = .none ↔ (s.getV r).toNat < 2 ^ 64) ∧
      (t8.status.err = .none → t8.res.toNat = (s.getV r).toNat) ∧
      (t32.status.err = .none → t32.res.toNat = (s.getV r).toNat) ∧
      (t64.status.err = .none → t64.res.toNat = (s.getV r).toNat)

/-- R168: GETBYTE gives byte OPA of `V[rs1]` for an index below 32, IndexError for every other 64-bit index, RES unchanged. -/
def Obligations.GetbyteReadsOneByte : Prop :=
  ∀ (s : State) (r : RegIdx), r.toNat < s.vregs.length →
    (s.opa.toNat < 32 →
      exec (.getbyte r) s =
        .next { s with
          res := ((s.getV r).extractLsb' (8 * s.opa.toNat) 8).zeroExtend 64
          status := ⟨.none, 0#4, 0x43#8, s.status.sticky⟩ }) ∧
    (32 ≤ s.opa.toNat → exec (.getbyte r) s = .next { s with status := ⟨.index, 0#4, 0x43#8, true⟩ }) ∧
    (∀ w : Word, decode w = .ok (.getbyte r) ↔ w &&& 0xFFFF0FFF#32 = 0x00000043#32 ∧ w.extractLsb' 12 4 = r)

/-- R169: ASBYTES copies the 32 bytes in storage order into `IOBUF[0..31]`, sets IOLEN to 32, leaves `IOBUF[32..65]`. -/
def Obligations.AsbytesCopiesInStorageOrder : Prop :=
  ∀ (s : State) (r : RegIdx), s.iobuf.wf = true → r.toNat < s.vregs.length →
    (∀ w : Word, decode w = .ok (.asbytes r) ↔ w &&& 0xFFFF0FFF#32 = 0x00000044#32 ∧ w.extractLsb' 12 4 = r) ∧
    ∃ m : Memory, m.wf = true ∧
      exec (.asbytes r) s =
        .next { s with iobuf := m, iolen := 32#16, status := ⟨.none, 0#4, 0x44#8, s.status.sticky⟩ } ∧
      (∀ k < 32, m.read k = (s.getV r).extractLsb' (8 * k) 8) ∧ (∀ k, 32 ≤ k → m.read k = s.iobuf.read k)

/-- 20_memory.md R65: the views of one value agree. For n the value of `V[r]`: GETBYTE i gives (n >> 8i) mod 256, ASBYTES puts
that byte at `IOBUF[i]`, TOHEX its two digits at `IOBUF[2 + 2(31-i)]` and `IOBUF[3 + 2(31-i)]`, and TOU64, when it succeeds,
returns n. -/
def Obligations.ViewsOfOneValueAgree : Prop :=
  ∀ (s : State) (r : RegIdx), s.iobuf.wf = true → r.toNat < s.vregs.length →
    ∃ g a h n : State, exec (.getbyte r) s = .next g ∧ exec (.asbytes r) s = .next a ∧ exec (.tohex r) s = .next h ∧
      exec (.tou64 r) s = .next n ∧
      (s.opa.toNat < 32 → g.res.toNat = ((s.getV r).toNat >>> (8 * s.opa.toNat)) % 256) ∧
      (∀ i < 32, (a.iobuf.read i).toNat = ((s.getV r).toNat >>> (8 * i)) % 256 ∧
        hexval (h.iobuf.read (2 + 2 * (31 - i))) = some (((s.getV r).toNat >>> (8 * i)) % 256 / 16) ∧
        hexval (h.iobuf.read (3 + 2 * (31 - i))) = some (((s.getV r).toNat >>> (8 * i)) % 256 % 16)) ∧
      (n.status.err = .none → n.res.toNat = (s.getV r).toNat)

/-- 30_encoding.md R89, MOV: ASBYTES vS then FROMSLICE vD copies the register, clobbering `IOBUF[0..31]` and IOLEN. -/
def Obligations.MovCopiesTheRegister : Prop :=
  ∀ (s : State) (vd vs : RegIdx), s.iobuf.wf = true → vd.toNat < s.vregs.length → vs.toNat < s.vregs.length →
    ∃ t u : State, exec (.asbytes vs) s = .next t ∧ exec (.fromslice vd) t = .next u ∧
      u.vregs = s.vregs.set vd.toNat (s.getV vs) ∧ u.iolen = 32#16 ∧ u.opa = s.opa ∧ u.res = s.res ∧
      (∀ k, 32 ≤ k → u.iobuf.read k = s.iobuf.read k) ∧ u.status.err = .none ∧ u.status.sticky = s.status.sticky

/-! Frames (10_state.md R23 to R27) -/

/-- What a command that writes a value register leaves unchanged: ZERO, ONE, FROMU8, FROMU32, FROMU64, FROMSLICE, FROMHEX, SHL,
SHR (destination rd) and ADD. Every other register, OPA, RES, IOLEN, CMD and every byte of IOBUF; of STATUS, STICKY is
only ever set. -/
def Obligations.ValueRegisterCommandsFrame : Prop :=
  ∀ (i : Instr) (s t : State) (rd : RegIdx),
    (i = .zero rd ∨ i = .one rd ∨ i = .fromu8 rd ∨ i = .fromu32 rd ∨ i = .fromu64 rd ∨ i = .fromslice rd ∨ i = .fromhex rd ∨
      i = .shl rd ∨ i = .shr rd ∨ ∃ rs1 rs2, i = .add rd rs1 rs2) →
    exec i s = .next t →
    (∀ r : RegIdx, r ≠ rd → t.getV r = s.getV r) ∧ t.vregs.length = s.vregs.length ∧
      t.opa = s.opa ∧ t.res = s.res ∧ t.iolen = s.iolen ∧ t.cmd = s.cmd ∧ (∀ a, t.iobuf.read a = s.iobuf.read a) ∧
      t.status.opc = (encode i).extractLsb' 0 8 ∧
      t.status.sticky = (s.status.sticky || decide (t.status.err ≠ .none))

/-- What the narrowing commands, GETBYTE and MUL leave unchanged: every value register, OPA, IOLEN, CMD and every byte of
IOBUF; RES too for MUL and for a command that fails; of STATUS, STICKY is only ever set. -/
def Obligations.ResultCommandsFrame : Prop :=
  ∀ (i : Instr) (s t : State),
    ((∃ r, i = .tou8 r ∨ i = .tou32 r ∨ i = .tou64 r ∨ i = .getbyte r) ∨ ∃ rd rs1 rs2, i = .mul rd rs1 rs2) →
    exec i s = .next t →
    t.vregs = s.vregs ∧ t.opa = s.opa ∧ t.iolen = s.iolen ∧ t.cmd = s.cmd ∧ (∀ a, t.iobuf.read a = s.iobuf.read a) ∧
      ((∃ rd rs1 rs2, i = .mul rd rs1 rs2) ∨ t.status.err ≠ .none → t.res = s.res) ∧
      t.status.opc = (encode i).extractLsb' 0 8 ∧
      t.status.sticky = (s.status.sticky || decide (t.status.err ≠ .none))

/-- What TOHEX and ASBYTES leave unchanged: every value register, OPA, RES, CMD; and every byte of IOBUF outside the stored
ones, which are `IOBUF[0..65]` for TOHEX and `IOBUF[0..31]` for ASBYTES; of STATUS, STICKY is only ever set. -/
def Obligations.BufferCommandsFrame : Prop :=
  ∀ (i : Instr) (s t : State) (r : RegIdx), s.iobuf.wf = true → (i = .tohex r ∨ i = .asbytes r) → exec i s = .next t →
    t.vregs = s.vregs ∧ t.opa = s.opa ∧ t.res = s.res ∧ t.cmd = s.cmd ∧
      (∀ a, (if i = .tohex r then 66 else 32) ≤ a → t.iobuf.read a = s.iobuf.read a) ∧
      t.status.opc = (encode i).extractLsb' 0 8 ∧
      t.status.sticky = (s.status.sticky || decide (t.status.err ≠ .none))

/-- No command touches the host's side: the accesses still to come and the words read so far (20_memory.md R70). -/
def Obligations.CommandsLeaveTheHostSide : Prop :=
  ∀ (i : Instr) (s t : State), exec i s = .next t → t.pending = s.pending ∧ t.reads = s.reads

/-! The report (60_exceptions.md) -/

/-- R203: a command that does not succeed ended by some raise of a kind and a cause: STATUS gets them, OPC = w[7:0] and
STICKY = 1; no other state changes, CMD holds w; and the next command runs normally. -/
def Obligations.FailureChangesOnlyStatus : Prop :=
  ∀ (s t : State) (w : Word) (rest : List HostEvent), s.pending = .write 0x00 4 w :: rest → step s = .next t →
    t.status.err ≠ .none →
    (∃ (kind : ErrKind) (cause : BitVec 4), kind ≠ .none ∧
      t = { s with pending := rest, cmd := w, status := ⟨kind, cause, w.extractLsb' 0 8, true⟩ }) ∧
    (∀ (w' : Word) (rest' : List HostEvent), rest = .write 0x00 4 w' :: rest' →
      step t = execute w' { t with pending := rest', cmd := w' })

/-- R204: a command that succeeds ends with ERR 0, CAUSE 0, OPC = op and leaves STICKY as it was. -/
def Obligations.SuccessLeavesSticky : Prop :=
  ∀ (s t : State) (w : Word) (rest : List HostEvent), s.pending = .write 0x00 4 w :: rest → step s = .next t →
    t.status.err = .none →
    t.status.cause = 0#4 ∧ t.status.opc = w.extractLsb' 0 8 ∧ t.status.sticky = s.status.sticky

/-- R205: STICKY is set by every failed command and cleared only by reset; no command and no host access clears it. -/
def Obligations.StickyIsClearedOnlyByReset : Prop :=
  ∀ (s t : State) (e : HostEvent) (rest : List HostEvent), s.pending = e :: rest → step s = .next t →
    (e = .reset → t.status.sticky = false) ∧
    (e ≠ .reset → s.status.sticky = true → t.status.sticky = true) ∧
    (∀ w, e = .write 0x00 4 w → t.status.sticky = (s.status.sticky || decide (t.status.err ≠ .none))) ∧
    (e ≠ .reset → (∀ w, e ≠ .write 0x00 4 w) → t.status = s.status)

/-- 10_state.md R28, R41: no command reads STATUS; nor does a result depend on RES, CMD or the host's side. Two states that
differ only there stay equal everywhere else, and get the same outcome. -/
def Obligations.ResultsDoNotDependOnStatus : Prop :=
  ∀ (i : Instr) (s s' t t' : State),
    s'.vregs = s.vregs → s'.opa = s.opa → s'.iolen = s.iolen → s'.iobuf = s.iobuf →
    exec i s = .next t → exec i s' = .next t' →
    t'.vregs = t.vregs ∧ t'.opa = t.opa ∧ t'.iolen = t.iolen ∧ t'.iobuf = t.iobuf ∧
      t'.status.err = t.status.err ∧ t'.status.cause = t.status.cause ∧ t'.status.opc = t.status.opc ∧
      (t.status.err = .none → (∃ r, i = .tou8 r ∨ i = .tou32 r ∨ i = .tou64 r ∨ i = .getbyte r) → t'.res = t.res)

/-- 93_implementation_defined.md P15: the bytes of IOBUF at and above IOLEN have no effect on FROMSLICE or FROMHEX, and with
IOLEN over the limit (32, 66) no byte has (R106, R121). -/
def Obligations.BytesPastTheLengthAreNotRead : Prop :=
  ∀ (s t t' : State) (m : Memory) (rd : RegIdx),
    ((s.iolen.toNat ≤ 32 → ∀ k < s.iolen.toNat, m.read k = s.iobuf.read k) →
      exec (.fromslice rd) s = .next t → exec (.fromslice rd) { s with iobuf := m } = .next t' →
      t' = { t with iobuf := m }) ∧
    ((s.iolen.toNat ≤ 66 → ∀ k < s.iolen.toNat, m.read k = s.iobuf.read k) →
      exec (.fromhex rd) s = .next t → exec (.fromhex rd) { s with iobuf := m } = .next t' →
      t' = { t with iobuf := m })

/-! The host window (10_state.md, 20_memory.md) -/

/-- R31: a write of CMD stores the word and executes it; the same word written twice executes twice; a read of CMD returns
the last word written (0 after reset) and executes nothing. -/
def Obligations.CmdStoresExecutesAndReadsBack : Prop :=
  ∀ (s : State) (w : Word) (rest : List HostEvent),
    (s.pending = .write 0x00 4 w :: rest → step s = execute w { s with pending := rest, cmd := w } ∧
      ∀ t, step s = .next t → t.cmd = w ∧ t.pending = rest) ∧
    (s.pending = .write 0x00 4 w :: .write 0x00 4 w :: rest →
      ∃ t u, step s = .next t ∧ step t = execute w { t with pending := rest } ∧ step t = .next u ∧ u.pending = rest) ∧
    (s.pending = .read 0x00 4 :: rest → step s = .next { s with pending := rest, reads := s.reads ++ [s.cmd] }) ∧
    (s.pending = .reset :: .read 0x00 4 :: rest →
      ∃ t, step s = .next t ∧ step t = .next { t with pending := rest, reads := s.reads ++ [0#32] })

/-- R32: a read of 0x04 returns {15'b0, STICKY, OPC, CAUSE, ERR}, ERR coded 0..5 as in 60_exceptions.md R200; a write of 0x04
is ignored. -/
def Obligations.StatusReadsAsItsFields : Prop :=
  ∀ (s : State) (rest : List HostEvent),
    (s.pending = .read 0x04 4 :: rest →
      ∃ w : Word, step s = .next { s with pending := rest, reads := s.reads ++ [w] } ∧
        w.toNat =
          (match s.status.err with
            | .none => 0 | .construction => 1 | .index => 2 | .overflow => 3 | .unimplemented => 4 | .illegal => 5)
          + s.status.cause.toNat * 2 ^ 4 + s.status.opc.toNat * 2 ^ 8 + (if s.status.sticky then 1 else 0) * 2 ^ 16) ∧
    (∀ w : Word, s.pending = .write 0x04 4 w :: rest → step s = .next { s with pending := rest })

/-- R33, R34: ID reads 0x55323536; CONFIG holds NUM_VREGS in bits 4:0, zero in 7:5, 66 in 15:8, 32 in 23:16 and version 1 in
31:24, which is 0x01204204 for NUM_VREGS = 4; writes of both are ignored. -/
def Obligations.IdAndConfigAreConstants : Prop :=
  ∀ (s : State) (rest : List HostEvent), 1 ≤ s.vregs.length → s.vregs.length ≤ 16 →
    (s.pending = .read 0x1C 4 :: rest →
      step s = .next { s with pending := rest, reads := s.reads ++ [0x55323536#32] }) ∧
    (s.pending = .read 0x20 4 :: rest →
      ∃ c : Word, step s = .next { s with pending := rest, reads := s.reads ++ [c] } ∧
        (c.extractLsb' 0 5).toNat = s.vregs.length ∧ c.extractLsb' 5 3 = 0#3 ∧ c.extractLsb' 8 8 = 66#8 ∧
        c.extractLsb' 16 8 = 32#8 ∧ c.extractLsb' 24 8 = 1#8 ∧ (s.vregs.length = 4 → c = 0x01204204#32)) ∧
    (∀ w : Word, s.pending = .write 0x1C 4 w :: rest ∨ s.pending = .write 0x20 4 w :: rest →
      step s = .next { s with pending := rest })

/-- R35: OPA is written and read as two halves, each leaving the other unchanged. -/
def Obligations.OpaIsTwoHalves : Prop :=
  ∀ (s : State) (w : Word) (rest : List HostEvent),
    (s.pending = .write 0x08 4 w :: rest →
      ∃ x : Native, step s = .next { s with pending := rest, opa := x } ∧ x.extractLsb' 0 32 = w ∧
        x.extractLsb' 32 32 = s.opa.extractLsb' 32 32) ∧
    (s.pending = .write 0x0C 4 w :: rest →
      ∃ x : Native, step s = .next { s with pending := rest, opa := x } ∧ x.extractLsb' 32 32 = w ∧
        x.extractLsb' 0 32 = s.opa.extractLsb' 0 32) ∧
    (s.pending = .read 0x08 4 :: rest →
      step s = .next { s with pending := rest, reads := s.reads ++ [s.opa.extractLsb' 0 32] }) ∧
    (s.pending = .read 0x0C 4 :: rest →
      step s = .next { s with pending := rest, reads := s.reads ++ [s.opa.extractLsb' 32 32] })

/-- R36: RES is read as two halves; writes are ignored. -/
def Obligations.ResIsReadAsTwoHalves : Prop :=
  ∀ (s : State) (w : Word) (rest : List HostEvent),
    (s.pending = .read 0x10 4 :: rest →
      step s = .next { s with pending := rest, reads := s.reads ++ [s.res.extractLsb' 0 32] }) ∧
    (s.pending = .read 0x14 4 :: rest →
      step s = .next { s with pending := rest, reads := s.reads ++ [s.res.extractLsb' 32 32] }) ∧
    (s.pending = .write 0x10 4 w :: rest ∨ s.pending = .write 0x14 4 w :: rest → step s = .next { s with pending := rest })

/-- R37: IOLEN takes bits 15:0 of the word written and reads zero-extended. -/
def Obligations.IolenIsTheLowHalf : Prop :=
  ∀ (s : State) (w : Word) (rest : List HostEvent),
    (s.pending = .write 0x18 4 w :: rest → step s = .next { s with pending := rest, iolen := w.extractLsb' 0 16 }) ∧
    (s.pending = .read 0x18 4 :: rest →
      step s = .next { s with pending := rest, reads := s.reads ++ [s.iolen.zeroExtend 32] })

/-- R38: the word at 0x40 + 4m holds `IOBUF[4m..4m+3]`, the first in bits 7:0; a write sets those bytes and no other; bytes 66
and 67 do not exist, so bits 31:16 of word 0x80 read 0 and their written values are ignored. -/
def Obligations.IobufWordsHoldFourBytes : Prop :=
  ∀ (s : State) (m : Nat) (rest : List HostEvent), s.iobuf.wf = true → m ≤ 16 →
    (s.pending = .read (0x40 + 4 * m) 4 :: rest →
      ∃ x : Word, step s = .next { s with pending := rest, reads := s.reads ++ [x] } ∧
        (∀ j < 4, x.extractLsb' (8 * j) 8 = s.iobuf.read (4 * m + j)) ∧ (m = 16 → x.extractLsb' 16 16 = 0#16)) ∧
    (∀ w : Word, s.pending = .write (0x40 + 4 * m) 4 w :: rest →
      ∃ b : Memory, step s = .next { s with pending := rest, iobuf := b } ∧ b.wf = true ∧
        (∀ j < 4, 4 * m + j < 66 → b.read (4 * m + j) = w.extractLsb' (8 * j) 8) ∧
        (∀ k, k < 4 * m ∨ 4 * m + 4 ≤ k ∨ 66 ≤ k → b.read k = s.iobuf.read k))

/-- R39: a read of a reserved offset returns 0; a write of a reserved or read-only register is ignored; neither executes a
command. -/
def Obligations.ReservedOffsetsReadZero : Prop :=
  ∀ (s : State) (off : Nat) (rest : List HostEvent), off % 4 = 0 →
    ((0x24 ≤ off ∧ off ≤ 0x3C) ∨ (0x84 ≤ off ∧ off ≤ 0xFC) → s.pending = .read off 4 :: rest →
      step s = .next { s with pending := rest, reads := s.reads ++ [0#32] }) ∧
    (∀ w : Word, (0x24 ≤ off ∧ off ≤ 0x3C) ∨ (0x84 ≤ off ∧ off ≤ 0xFC) ∨ off = 0x04 ∨ off = 0x10 ∨ off = 0x14 ∨ off = 0x1C ∨
        off = 0x20 →
      s.pending = .write off 4 w :: rest → step s = .next { s with pending := rest })

/-- 20_memory.md R66: an access that is not 32 bits wide, or not at a multiple of 4, has no meaning and is refused. -/
def Obligations.UndefinedAccessesAreRefused : Prop :=
  ∀ (s : State) (off width : Nat) (w : Word) (rest : List HostEvent), (width ≠ 4 ∨ off % 4 ≠ 0) →
    (s.pending = .read off width :: rest ∨ s.pending = .write off width w :: rest) →
    step s = .refused .undefinedAccess

/-- The model's choice for an offset that names no byte of the window (log entry 6; 20_memory.md R69 gives no other address
space): a fault. -/
def Obligations.AccessesOutsideTheWindowFault : Prop :=
  ∀ (s : State) (off : Nat) (w : Word) (rest : List HostEvent), off % 4 = 0 → 0x100 ≤ off →
    (s.pending = .read off 4 :: rest ∨ s.pending = .write off 4 w :: rest) → step s = .fault .outsideWindow

/-- 20_memory.md R68: a write of CMD executes a command; a read has no side effect and is idempotent; no write but one of CMD
does anything beyond storing its word: it touches no value register, RES, STATUS or CMD, and no half of OPA, no IOLEN and no
byte of IOBUF but the word at its own offset. -/
def Obligations.OnlyCmdHasSideEffects : Prop :=
  ∀ (s t : State) (e : HostEvent) (rest : List HostEvent), s.pending = e :: rest → step s = .next t →
    (∀ w, e = .write 0x00 4 w → execute w { s with pending := rest, cmd := w } = .next t) ∧
    (∀ off, e = .read off 4 → ∃ x, t = { s with pending := rest, reads := s.reads ++ [x] }) ∧
    (∀ off rest', e = .read off 4 → rest = .read off 4 :: rest' →
      ∃ x, step t = .next { s with pending := rest', reads := s.reads ++ [x, x] }) ∧
    (∀ off w, e = .write off 4 w → off ≠ 0x00 →
      t.vregs = s.vregs ∧ t.res = s.res ∧ t.status = s.status ∧ t.cmd = s.cmd ∧ t.reads = s.reads ∧ t.pending = rest ∧
      (off ≠ 0x08 → t.opa.extractLsb' 0 32 = s.opa.extractLsb' 0 32) ∧
      (off ≠ 0x0C → t.opa.extractLsb' 32 32 = s.opa.extractLsb' 32 32) ∧
      (off ≠ 0x18 → t.iolen = s.iolen) ∧
      (s.iobuf.wf = true → ∀ k, off ≠ 0x40 + 4 * (k / 4) → t.iobuf.read k = s.iobuf.read k))

/-- 20_memory.md R70: accesses are performed one at a time in the host's order; each step consumes exactly the first, and only
a read gives the host a word. With none waiting the block holds its state (60_exceptions.md R214). -/
def Obligations.AccessesAreTakenInOrder : Prop :=
  ∀ (s t : State), step s = .next t →
    (s.pending = [] → t = s) ∧
    (∀ e rest, s.pending = e :: rest → t.pending = rest ∧
      (∀ off, e = .read off 4 → ∃ x, t.reads = s.reads ++ [x]) ∧ ((∀ off, e ≠ .read off 4) → t.reads = s.reads))

/-- A host that issues only accesses the block defines is never stopped, however long the run (R66, R69; no command
faults: 60_exceptions.md R203, R207). -/
def Obligations.DefinedHostsNeverStop : Prop :=
  ∀ (s : State) (n : Nat), s.hostDefined = true → ∃ t : State, Sys2Proof.core.run n s = .next t ∧ t.hostDefined = true

/-- 30_encoding.md R88: the directive `.opa N` leaves N in OPA, and `.iolen N` leaves N in IOLEN, and they touch no other state. -/
def Obligations.OperandDirectivesSetTheirRegister : Prop :=
  ∀ (s : State) (n : Native) (l : BitVec 16),
    (∃ es, Directive.accesses (.opa n) = some es ∧
      Sys2Proof.core.run es.length { s with pending := es } = .next { s with pending := [], opa := n }) ∧
    (∃ es, Directive.accesses (.iolen l) = some es ∧
      Sys2Proof.core.run es.length { s with pending := es } = .next { s with pending := [], iolen := l })

/-- 30_encoding.md R88: the directive `.io` (and `.iobytes`) with at most 66 bytes leaves them in `IOBUF[0 ..]` and their count in
IOLEN, writes 0 in the rest of the last word, and touches no other state. -/
def Obligations.IoDirectiveLoadsTheBytes : Prop :=
  ∀ (s : State) (bs : List Byte), s.iobuf.wf = true → bs.length ≤ 66 →
    Directive.accesses (.io bs) = Directive.accesses (.iobytes bs) ∧
    ∃ es m, Directive.accesses (.io bs) = some es ∧
      Sys2Proof.core.run es.length { s with pending := es } =
        .next { s with pending := [], iobuf := m, iolen := BitVec.ofNat 16 bs.length } ∧
      (∀ k < bs.length, m.read k = bs.getD k 0#8) ∧
      (∀ k, bs.length ≤ k → m.read k = if k / 4 < (bs.length + 3) / 4 then 0#8 else s.iobuf.read k)

/-! Reset and invariants -/

/-- Reset makes every register, every byte and every field zero, and ID and CONFIG keep their constants (10_state.md, reset
values). That the number of registers, the host's coming accesses and the words it has read stay is DEDUCED, the model's
choice: log entry 9. -/
def Obligations.ResetZeroesEverything : Prop :=
  ∀ (s : State) (rest : List HostEvent), s.pending = .reset :: rest →
    ∃ t : State, step s = .next t ∧ t.vregs = List.replicate s.vregs.length 0#256 ∧ t.opa = 0#64 ∧ t.res = 0#64 ∧
      t.iolen = 0#16 ∧ (∀ k, t.iobuf.read k = 0#8) ∧ t.cmd = 0#32 ∧ t.status = ⟨.none, 0#4, 0#8, false⟩ ∧
      readReg t (regAt 0x1C) = 0x55323536#32 ∧ readReg t (regAt 0x20) = readReg s (regAt 0x20) ∧
      t.pending = rest ∧ t.reads = s.reads

/-- The machine the model starts from holds R40's values; that it has 4 value registers and no access waiting is the model's
choice (log entries 1 and 2). -/
def Obligations.StateAfterReset : Prop :=
  State.reset.vregs = [0#256, 0#256, 0#256, 0#256] ∧ State.reset.opa = 0#64 ∧ State.reset.res = 0#64 ∧
    State.reset.iolen = 0#16 ∧ (∀ k, State.reset.iobuf.read k = 0#8) ∧ State.reset.cmd = 0#32 ∧
    State.reset.status = ⟨.none, 0#4, 0#8, false⟩ ∧ State.reset.pending = [] ∧ State.reset.reads = []

/-- Reset meets the invariant of Safety.lean, for every number of registers the spec allows. -/
def Obligations.ResetMeetsTheInvariant : Prop :=
  State.reset.Inv ∧ ∀ n, 1 ≤ n → n ≤ 16 → (State.resetWith n).Inv

/-- Every step keeps the invariant: 1 to 16 registers (10_state.md R20), IOBUF canonical, a legal report (60_exceptions.md R200,
R201), STICKY set whenever the last command failed (R205), OPC the opcode bits of CMD (10_state.md R28, R31). -/
def Obligations.StepKeepsTheInvariant : Prop :=
  ∀ s t : State, s.Inv → step s = .next t → t.Inv

/-- The number of value registers never changes, whatever the host does (10_state.md R20: a parameter; R34: CONFIG is a
constant). -/
def Obligations.RegisterCountNeverChanges : Prop :=
  ∀ s t : State, step s = .next t → t.vregs.length = s.vregs.length
end

