-- ==== Sys2Proof/Laws/Bytes.lean ====
section
/-! SUPPORT. The byte view of a value (10_state.md R21): reading a byte of an assembled value, and that its 32 bytes determine
a value. -/

namespace Sys2Proof.Machine

theorem byteSum_lt (f : Nat → Byte) (n : Nat) : byteSum f n < 256 ^ n := by
  induction n with
  | zero => simp [byteSum]
  | succ n ih =>
    have hb : (f n).toNat * 256 ^ n ≤ 255 * 256 ^ n := Nat.mul_le_mul_right _ (by have := (f n).isLt; omega)
    simp only [byteSum, pow_succ]
    omega

theorem byteSum_congr {f g : Nat → Byte} {n : Nat} (h : ∀ i < n, f i = g i) : byteSum f n = byteSum g n := by
  induction n with
  | zero => rfl
  | succ n ih =>
    rw [byteSum, byteSum, ih (fun i hi => h i (by omega)), h n (by omega)]

theorem toNat_ofBytes (f : Nat → Byte) : (ofBytes f).toNat = byteSum f 32 := by
  rw [ofBytes, BitVec.toNat_ofNat]
  exact Nat.mod_eq_of_lt (by have := byteSum_lt f 32; norm_num at this ⊢; exact this)

/-- Digit i of the byte sum is byte i. -/
theorem byteSum_digit (f : Nat → Byte) {i n : Nat} (h : i < n) : byteSum f n / 256 ^ i % 256 = (f i).toNat := by
  induction n with
  | zero => omega
  | succ n ih =>
    rw [byteSum]
    rcases Nat.lt_succ_iff_lt_or_eq.mp h with hi | rfl
    · obtain ⟨d, rfl⟩ : ∃ d, n = i + d + 1 := ⟨n - i - 1, by omega⟩
      have : (f (i + d + 1)).toNat * 256 ^ (i + d + 1) = 256 ^ i * ((f (i + d + 1)).toNat * 256 ^ d * 256) := by ring
      rw [this, Nat.add_mul_div_left _ _ (by positivity), Nat.add_mul_mod_self_right, ih hi]
    · rw [Nat.mul_comm, Nat.add_mul_div_left _ _ (by positivity), Nat.div_eq_of_lt (byteSum_lt f i), Nat.zero_add]
      exact Nat.mod_eq_of_lt (f i).isLt

theorem toNat_byteAt (v : Value) (i : Nat) : (byteAt v i).toNat = v.toNat / 256 ^ i % 256 := by
  rw [byteAt, BitVec.extractLsb'_toNat, Nat.shiftRight_eq_div_pow, pow_mul, show (2 : Nat) ^ 8 = 256 from rfl]

theorem byteAt_ofBytes (f : Nat → Byte) {i : Nat} (h : i < 32) : byteAt (ofBytes f) i = f i := by
  apply BitVec.eq_of_toNat_eq
  rw [toNat_byteAt, toNat_ofBytes, byteSum_digit f h]

/-- The low n bytes of a value sum to its remainder modulo 256^n. -/
theorem byteSum_byteAt (v : Value) (n : Nat) : byteSum (byteAt v) n = v.toNat % 256 ^ n := by
  induction n with
  | zero => simp [byteSum, Nat.mod_one]
  | succ n ih => rw [byteSum, ih, toNat_byteAt, Nat.mod_pow_succ, Nat.mul_comm]

theorem ofBytes_byteAt (v : Value) : ofBytes (byteAt v) = v := by
  apply BitVec.eq_of_toNat_eq
  rw [toNat_ofBytes, byteSum_byteAt]
  exact Nat.mod_eq_of_lt (by have := v.isLt; norm_num at this ⊢; exact this)

/-- A value is its 32 bytes. -/
theorem value_ext {v w : Value} (h : ∀ i < 32, byteAt v i = byteAt w i) : v = w := by
  rw [← ofBytes_byteAt v, ← ofBytes_byteAt w, ofBytes, ofBytes, byteSum_congr h]

theorem ofBytes_eq_iff {f : Nat → Byte} {v : Value} : ofBytes f = v ↔ ∀ i < 32, f i = byteAt v i := by
  constructor
  · rintro rfl i hi
    exact (byteAt_ofBytes f hi).symm
  · intro h
    exact value_ext (fun i hi => (byteAt_ofBytes f hi).trans (h i hi))

end Sys2Proof.Machine
end

