-- ==== Sys2Proof/Laws/Arith.lean ====
section
/-! SUPPORT. The arithmetic meaning of the byte-wise operations: native placement (40_construction.md R100), the two-phase
shifts (42_shift.md R144, R145), the ripple-carry adder (43_add_narrow.md R161) and the narrowing test (R164). -/

namespace Sys2Proof.Machine

/-! Native placement -/

theorem toNat_nativeByte (n : Native) (i : Nat) : (nativeByte n i).toNat = n.toNat / 256 ^ i % 256 := by
  rw [nativeByte, BitVec.extractLsb'_toNat, Nat.shiftRight_eq_div_pow, pow_mul, show (2 : Nat) ^ 8 = 256 from rfl]

/-- `V[rd] = zext_256(n[8k-1:0])` (R100). -/
theorem toNat_nativePlacement (k : Nat) (n : Native) : (nativePlacement k n).toNat = n.toNat % 256 ^ k := by
  suffices h : nativePlacement k n = BitVec.ofNat 256 (n.toNat % 256 ^ k) by
    rw [h, BitVec.toNat_ofNat]
    exact Nat.mod_eq_of_lt (lt_of_le_of_lt (Nat.mod_le _ _) (lt_trans n.isLt (by norm_num)))
  rw [nativePlacement, ofBytes_eq_iff]
  intro i hi
  apply BitVec.eq_of_toNat_eq
  rw [toNat_byteAt, BitVec.toNat_ofNat, Nat.mod_eq_of_lt (a := n.toNat % 256 ^ k)
    (lt_of_le_of_lt (Nat.mod_le _ _) (lt_trans n.isLt (by norm_num)))]
  split
  · rename_i hik
    obtain ⟨d, rfl⟩ : ∃ d, k = i + 1 + d := ⟨k - i - 1, by omega⟩
    rw [toNat_nativeByte, pow_add, pow_add, Nat.mul_assoc, Nat.mod_mul_right_div_self, pow_one, Nat.mod_mul_right_mod]
  · rename_i hik
    rw [Nat.div_eq_of_lt]
    · rfl
    · exact lt_of_lt_of_le (Nat.mod_lt _ (by positivity)) (Nat.pow_le_pow_right (by norm_num) (by omega))

/-! Addition -/

/-- After n stages the sum bytes and the carry hold the sum of the low n bytes. -/
theorem byteSum_sumByte (a b : Value) (n : Nat) :
    byteSum (sumByte a b) n + carryInto a b n * 256 ^ n = byteSum (byteAt a) n + byteSum (byteAt b) n := by
  induction n with
  | zero => simp [byteSum, carryInto]
  | succ n ih =>
    have hs : (sumByte a b n).toNat = (carryInto a b n + (byteAt a n).toNat + (byteAt b n).toNat) % 256 := by
      simp [sumByte]
    rw [byteSum, hs, carryInto, byteSum, byteSum, pow_succ]
    have hd := Nat.mod_add_div (carryInto a b n + (byteAt a n).toNat + (byteAt b n).toNat) 256
    generalize (carryInto a b n + (byteAt a n).toNat + (byteAt b n).toNat) % 256 = r at *
    generalize hq : (carryInto a b n + (byteAt a n).toNat + (byteAt b n).toNat) / 256 = q at *
    calc byteSum (sumByte a b) n + r * 256 ^ n + q * (256 ^ n * 256)
        = byteSum (sumByte a b) n + (r + 256 * q) * 256 ^ n := by ring
      _ = (byteSum (sumByte a b) n + carryInto a b n * 256 ^ n)
            + ((byteAt a n).toNat * 256 ^ n + (byteAt b n).toNat * 256 ^ n) := by rw [hd]; ring
      _ = _ := by rw [ih]; ring

/-- The ripple-carry sum is addition modulo 2^256 (R161). -/
theorem rippleAdd_eq_add (a b : Value) : rippleAdd a b = a + b := by
  apply BitVec.eq_of_toNat_eq
  have h := byteSum_sumByte a b 32
  rw [byteSum_byteAt, byteSum_byteAt] at h
  have ha : a.toNat % 256 ^ 32 = a.toNat := Nat.mod_eq_of_lt (by have := a.isLt; norm_num at this ⊢; exact this)
  have hb : b.toNat % 256 ^ 32 = b.toNat := Nat.mod_eq_of_lt (by have := b.isLt; norm_num at this ⊢; exact this)
  rw [ha, hb] at h
  rw [rippleAdd, toNat_ofBytes, BitVec.toNat_add, ← h, show (2 : Nat) ^ 256 = 256 ^ 32 by norm_num,
    Nat.add_mul_mod_self_right]
  exact (Nat.mod_eq_of_lt (byteSum_lt _ 32)).symm

/-- Each carry is 0 or 1 (R162). -/
theorem carryInto_le_one (a b : Value) (n : Nat) : carryInto a b n ≤ 1 := by
  cases n with
  | zero => simp [carryInto]
  | succ n =>
    have ih := carryInto_le_one a b n
    have := (byteAt a n).isLt
    have := (byteAt b n).isLt
    rw [carryInto]
    omega

/-! Narrowing -/

/-- Every byte from index k up is zero exactly when the value is below 256^k (R164). -/
theorem highBytesZero_iff (k : Nat) (v : Value) : highBytesZero k v = true ↔ v.toNat < 256 ^ k := by
  rw [highBytesZero, List.all_eq_true]
  constructor
  · intro h
    have hmod : ∀ n, v.toNat % 256 ^ (min n k) = v.toNat % 256 ^ n ∨ 32 < n := by
      intro n
      induction n with
      | zero => simp
      | succ n ih =>
        by_cases hn : 32 < n + 1
        · exact Or.inr hn
        · left
          by_cases hk : n + 1 ≤ k
          · rw [min_eq_left hk]
          · have hz := h n (List.mem_range.mpr (by omega))
            have hz : byteAt v n = 0#8 := by simpa [show ¬ n < k by omega] using hz
            have hz := congrArg BitVec.toNat hz
            rw [toNat_byteAt] at hz
            have ih := ih.resolve_right (by omega)
            rw [min_eq_right (by omega)] at ih ⊢
            rw [Nat.mod_pow_succ, hz, ← ih]; simp
    have h32 := (hmod 32).resolve_right (by omega)
    have hv : v.toNat % 256 ^ 32 = v.toNat := Nat.mod_eq_of_lt (by have := v.isLt; norm_num at this ⊢; exact this)
    rw [← hv, ← h32]
    exact lt_of_lt_of_le (Nat.mod_lt _ (by positivity)) (Nat.pow_le_pow_right (by norm_num) (min_le_right _ _))
  · intro h i _
    by_cases hik : i < k
    · simp [hik]
    · have : byteAt v i = 0#8 := by
        apply BitVec.eq_of_toNat_eq
        rw [toNat_byteAt, Nat.div_eq_of_lt (lt_of_lt_of_le h (Nat.pow_le_pow_right (by norm_num) (by omega)))]
        rfl
      simp [this]

/-! Shifts -/

theorem getLsbD_byteAt (v : Value) (i j : Nat) : (byteAt v i).getLsbD j = (decide (j < 8) && v.getLsbD (8 * i + j)) := by
  simp [byteAt]

/-- Equality of values bit by bit within the bytes. -/
theorem ofBytes_eq_of_bits {f : Nat → Byte} {v : Value}
    (h : ∀ i < 32, ∀ j < 8, (f i).getLsbD j = v.getLsbD (8 * i + j)) : ofBytes f = v := by
  rw [ofBytes_eq_iff]
  intro i hi
  apply BitVec.eq_of_getLsbD_eq
  intro j hj
  rw [h i hi j hj, getLsbD_byteAt]
  simp [hj]

/-- Where a bit of SHL's byte phase comes from. -/
theorem getLsbD_bytePhaseLeft (v : Value) (bs i j : Nat) (hj : j < 8) :
    (bytePhaseLeft bs (byteAt v) i).getLsbD j = (decide (bs ≤ i) && v.getLsbD (8 * (i - bs) + j)) := by
  rw [bytePhaseLeft]
  split
  · rw [getLsbD_byteAt]; simp [*]
  · simp [*]

theorem getLsbD_bytePhaseRight (v : Value) (bs i j : Nat) (hj : j < 8) :
    (bytePhaseRight bs (byteAt v) i).getLsbD j = (decide (i + bs ≤ 31) && v.getLsbD (8 * (i + bs) + j)) := by
  rw [bytePhaseRight]
  split
  · rw [getLsbD_byteAt]; simp [*]
  · simp [*]

theorem shiftLeft_eq (v : Value) (places : Native) : shiftLeft v places = v <<< places.toNat := by
  have hn : 8 * (places.toNat / 8) + places.toNat % 8 = places.toNat := by omega
  rw [shiftLeft, byteShift, bitShift]
  split
  · exact ofBytes_eq_of_bits (fun i hi j hj => by simp; omega)
  · apply ofBytes_eq_of_bits
    intro i hi j hj
    generalize places.toNat = n at *
    rw [BitVec.getLsbD_shiftLeft, bitPhaseLeft]
    split
    · rw [getLsbD_bytePhaseLeft v _ _ _ hj]
      by_cases hle : n / 8 ≤ i
      · rw [show 8 * i + j - n = 8 * (i - n / 8) + j by omega]
        simp [hle, show ¬ (8 * i + j < n) by omega, show 8 * i + j < 256 by omega]
      · simp [hle, show 8 * i + j < n by omega]
    · split
      · rename_i hb h0
        subst h0
        rw [BitVec.getLsbD_shiftLeft, getLsbD_bytePhaseLeft v _ _ _ (by omega)]
        by_cases hc : n ≤ j
        · rw [show 8 * 0 + j - n = 8 * (0 - n / 8) + (j - n % 8) by omega]
          simp [show ¬ j < n % 8 by omega, show n / 8 = 0 by omega, show ¬ j < n by omega, hj, show j < 256 by omega]
        · by_cases hz : n / 8 = 0
          · simp [show j < n % 8 by omega, show j < n by omega]
          · simp [hz, show j < n by omega]
      · rename_i hb h0
        rw [BitVec.getLsbD_or, BitVec.getLsbD_shiftLeft, BitVec.getLsbD_ushiftRight,
          getLsbD_bytePhaseLeft v _ _ _ (by omega)]
        by_cases hc : j < n % 8
        · rw [getLsbD_bytePhaseLeft v _ _ _ (by omega)]
          by_cases hle : n / 8 ≤ i - 1
          · rw [show 8 * i + j - n = 8 * (i - 1 - n / 8) + (8 - n % 8 + j) by omega]
            simp [hc, hle, show ¬ 8 * i + j < n by omega, show 8 * i + j < 256 by omega]
          · simp [hc, hle, show 8 * i + j < n by omega]
        · have hz : (bytePhaseLeft (n / 8) (byteAt v) (i - 1)).getLsbD (8 - n % 8 + j) = false :=
            BitVec.getLsbD_of_ge _ _ (by omega)
          rw [hz]
          by_cases hle : n / 8 ≤ i
          · rw [show 8 * i + j - n = 8 * (i - n / 8) + (j - n % 8) by omega]
            simp [hc, hle, show ¬ 8 * i + j < n by omega, show 8 * i + j < 256 by omega, hj]
          · simp [hle, show 8 * i + j < n by omega]

theorem shiftRight_eq (v : Value) (places : Native) : shiftRight v places = v >>> places.toNat := by
  rw [shiftRight, byteShift, bitShift]
  split
  · exact ofBytes_eq_of_bits (fun i hi j hj => by simp; rw [BitVec.getLsbD_of_ge _ _ (by omega)])
  · apply ofBytes_eq_of_bits
    intro i hi j hj
    generalize places.toNat = n at *
    rw [BitVec.getLsbD_ushiftRight, bitPhaseRight]
    split
    · rw [getLsbD_bytePhaseRight v _ _ _ hj, show n + (8 * i + j) = 8 * (i + n / 8) + j by omega]
      by_cases hle : i + n / 8 ≤ 31
      · simp [hle]
      · simp [hle, BitVec.getLsbD_of_ge v (8 * (i + n / 8) + j) (by omega)]
    · split
      · rename_i hb h31
        subst h31
        rw [BitVec.getLsbD_ushiftRight]
        by_cases hc : n % 8 + j < 8
        · rw [getLsbD_bytePhaseRight v _ _ _ hc, show n + (8 * 31 + j) = 8 * (31 + n / 8) + (n % 8 + j) by omega]
          by_cases hle : 31 + n / 8 ≤ 31
          · simp [hle]
          · simp [hle, BitVec.getLsbD_of_ge v (8 * (31 + n / 8) + (n % 8 + j)) (by omega)]
        · rw [BitVec.getLsbD_of_ge _ _ (by omega), BitVec.getLsbD_of_ge v _ (by omega)]
      · rename_i hb h31
        rw [BitVec.getLsbD_or, BitVec.getLsbD_shiftLeft, BitVec.getLsbD_ushiftRight]
        by_cases hc : n % 8 + j < 8
        · rw [getLsbD_bytePhaseRight v _ _ _ hc, show n + (8 * i + j) = 8 * (i + n / 8) + (n % 8 + j) by omega]
          by_cases hle : i + n / 8 ≤ 31
          · simp [hle, show j < 8 - n % 8 by omega]
          · simp [hle, show j < 8 - n % 8 by omega, BitVec.getLsbD_of_ge v (8 * (i + n / 8) + (n % 8 + j)) (by omega)]
        · rw [BitVec.getLsbD_of_ge (bytePhaseRight (n / 8) (byteAt v) i) _ (by omega),
            getLsbD_bytePhaseRight v _ _ _ (by omega),
            show n + (8 * i + j) = 8 * (i + 1 + n / 8) + (j - (8 - n % 8)) by omega]
          by_cases hle : i + 1 + n / 8 ≤ 31
          · simp [hle, hj, show ¬ j < 8 - n % 8 by omega]
          · simp [hle, BitVec.getLsbD_of_ge v (8 * (i + 1 + n / 8) + (j - (8 - n % 8))) (by omega)]

end Sys2Proof.Machine
end

