-- ==== Sys2Proof/Laws/Decode.lean ====
section
/-! SUPPORT. The fields of a packed command word (30_encoding.md R81) and the opcode lookup (R82): one fact per field, so that
the decoder's proofs need no bit arithmetic. -/

namespace Sys2Proof

theorem opField_packFields (op : BitVec 8) (rd rs1 rs2 : RegIdx) : opField (packFields op rd rs1 rs2) = op := by
  apply BitVec.eq_of_getLsbD_eq
  intro j hj
  simp [opField, packFields, show j < 8 from hj, show j < 12 by omega, show j < 16 by omega, show j < 32 by omega]

theorem rdField_packFields (op : BitVec 8) (rd rs1 rs2 : RegIdx) : rdField (packFields op rd rs1 rs2) = rd := by
  apply BitVec.eq_of_getLsbD_eq
  intro j hj
  simp [rdField, packFields, hj, show 8 + j < 12 by omega, show 8 + j < 16 by omega, show 8 + j < 32 by omega]

theorem rs1Field_packFields (op : BitVec 8) (rd rs1 rs2 : RegIdx) : rs1Field (packFields op rd rs1 rs2) = rs1 := by
  apply BitVec.eq_of_getLsbD_eq
  intro j hj
  simp [rs1Field, packFields, hj, show ¬ 12 + j < 8 by omega, show 12 + j < 16 by omega, show 12 + j < 32 by omega,
    BitVec.getLsbD_of_ge op (12 + j) (by omega), BitVec.getLsbD_of_ge rd (12 + j - 8) (by omega)]

theorem rs2Field_packFields (op : BitVec 8) (rd rs1 rs2 : RegIdx) : rs2Field (packFields op rd rs1 rs2) = rs2 := by
  apply BitVec.eq_of_getLsbD_eq
  intro j hj
  simp [rs2Field, packFields, hj, show ¬ 16 + j < 8 by omega, show ¬ 16 + j < 12 by omega, show 16 + j < 32 by omega,
    BitVec.getLsbD_of_ge op (16 + j) (by omega), BitVec.getLsbD_of_ge rd (16 + j - 8) (by omega),
    BitVec.getLsbD_of_ge rs1 (16 + j - 12) (by omega)]

theorem opOfCode_opcode (o : Op) : opOfCode (opcode o) = some o := by
  cases o <;> decide

/-- A code names at most one command, the one whose opcode it is (R82). -/
theorem opOfCode_eq_some {c : BitVec 8} {o : Op} : opOfCode c = some o ↔ opcode o = c := by
  constructor
  · intro h
    have := List.find?_some h
    simpa using this
  · rintro rfl
    exact opOfCode_opcode o

/-! A word as its fields -/

/-- Bits 31:20 of a packed word are zero (R81). -/
theorem topBits_packFields (op : BitVec 8) (rd rs1 rs2 : RegIdx) : (packFields op rd rs1 rs2).extractLsb' 20 12 = 0#12 := by
  apply BitVec.eq_of_getLsbD_eq
  intro j hj
  simp [packFields, hj, show ¬ 20 + j < 8 by omega, show ¬ 20 + j < 12 by omega, show ¬ 20 + j < 16 by omega,
    BitVec.getLsbD_of_ge op (20 + j) (by omega), BitVec.getLsbD_of_ge rd (20 + j - 8) (by omega),
    BitVec.getLsbD_of_ge rs1 (20 + j - 12) (by omega), BitVec.getLsbD_of_ge rs2 (20 + j - 16) (by omega)]

theorem append_inj {n m : Nat} {a a' : BitVec n} {b b' : BitVec m} : a ++ b = a' ++ b' ↔ a = a' ∧ b = b' := by
  constructor
  · intro h
    constructor
    · apply BitVec.eq_of_getLsbD_eq
      intro j hj
      have := congrArg (fun x => x.getLsbD (j + m)) h
      simpa [BitVec.getLsbD_append] using this
    · apply BitVec.eq_of_getLsbD_eq
      intro j hj
      have := congrArg (fun x => x.getLsbD j) h
      simpa [BitVec.getLsbD_append, hj] using this
  · rintro ⟨rfl, rfl⟩
    rfl

/-- Bits 31:20 and the four fields side by side (R81). -/
def joinFields (top : BitVec 12) (rs2 rs1 rd : BitVec 4) (op : BitVec 8) : Word := top ++ (rs2 ++ (rs1 ++ (rd ++ op)))

theorem joinFields_inj {t t' : BitVec 12} {c c' b b' a a' : BitVec 4} {o o' : BitVec 8} :
    joinFields t c b a o = joinFields t' c' b' a' o' ↔ t = t' ∧ c = c' ∧ b = b' ∧ a = a' ∧ o = o' := by
  constructor
  · intro h
    obtain ⟨h0, h⟩ := append_inj.mp h
    obtain ⟨h1, h⟩ := append_inj.mp h
    obtain ⟨h2, h⟩ := append_inj.mp h
    exact ⟨h0, h1, h2, append_inj.mp h⟩
  · rintro ⟨rfl, rfl, rfl, rfl, rfl⟩
    rfl

theorem joinFields_and (t t' : BitVec 12) (c c' b b' a a' : BitVec 4) (o o' : BitVec 8) :
    joinFields t c b a o &&& joinFields t' c' b' a' o' =
      joinFields (t &&& t') (c &&& c') (b &&& b') (a &&& a') (o &&& o') := by
  refine (BitVec.and_append ..).trans (append_inj.mpr ⟨rfl, ?_⟩)
  refine (BitVec.and_append ..).trans (append_inj.mpr ⟨rfl, ?_⟩)
  refine (BitVec.and_append ..).trans (append_inj.mpr ⟨rfl, ?_⟩)
  exact BitVec.and_append ..

/-- A word is its five fields (R81). -/
theorem joinFields_fields (w : Word) :
    joinFields (w.extractLsb' 20 12) (rs2Field w) (rs1Field w) (rdField w) (opField w) = w := by
  have h1 : rdField w ++ opField w = w.extractLsb' 0 12 :=
    BitVec.extractLsb'_append_extractLsb'_eq_extractLsb' (start₁ := 0) (len₁ := 8) (start₂ := 8) rfl
  have h2 : rs1Field w ++ w.extractLsb' 0 12 = w.extractLsb' 0 16 :=
    BitVec.extractLsb'_append_extractLsb'_eq_extractLsb' (start₁ := 0) (len₁ := 12) (start₂ := 12) rfl
  have h3 : rs2Field w ++ w.extractLsb' 0 16 = w.extractLsb' 0 20 :=
    BitVec.extractLsb'_append_extractLsb'_eq_extractLsb' (start₁ := 0) (len₁ := 16) (start₂ := 16) rfl
  have h4 : w.extractLsb' 20 12 ++ w.extractLsb' 0 20 = w.extractLsb' 0 32 :=
    BitVec.extractLsb'_append_extractLsb'_eq_extractLsb' (start₁ := 0) (len₁ := 20) (start₂ := 20) rfl
  rw [joinFields, h1, h2, h3]
  exact h4.trans BitVec.extractLsb'_eq_self

/-- A packed word's fields (R81). -/
theorem packFields_eq_join (op : BitVec 8) (rd rs1 rs2 : RegIdx) : packFields op rd rs1 rs2 = joinFields 0#12 rs2 rs1 rd op := by
  rw [← joinFields_fields (packFields op rd rs1 rs2), topBits_packFields, rs2Field_packFields, rs1Field_packFields,
    rdField_packFields, opField_packFields]

/-- A word with bits 31:20 zero is its packed fields. -/
theorem packFields_of_topBits {w : Word} (h : w.extractLsb' 20 12 = 0#12) :
    packFields (opField w) (rdField w) (rs1Field w) (rs2Field w) = w := by
  rw [packFields_eq_join, ← h, joinFields_fields]

/-- The fields that must be zero in a word of the command (R81, R82). -/
def unusedZero (o : Op) (w : Word) : Prop :=
  w.extractLsb' 20 12 = 0#12 ∧
    match o with
    | .add | .mul => True
    | .tohex | .tou8 | .tou32 | .tou64 | .getbyte | .asbytes => rdField w = 0#4 ∧ rs2Field w = 0#4
    | .zero | .one | .fromu8 | .fromu32 | .fromu64 | .fromslice | .fromhex | .shl | .shr => rs1Field w = 0#4 ∧ rs2Field w = 0#4

/-- A word under a mask made of fields, field by field. -/
theorem and_join_iff {w : Word} {t t' : BitVec 12} {c c' b b' a a' : BitVec 4} {o o' : BitVec 8} :
    w &&& joinFields t c b a o = joinFields t' c' b' a' o' ↔
      w.extractLsb' 20 12 &&& t = t' ∧ rs2Field w &&& c = c' ∧ rs1Field w &&& b = b' ∧ rdField w &&& a = a' ∧
        opField w &&& o = o' := by
  rw [← joinFields_inj, ← joinFields_and, joinFields_fields]

/-- The MATCH and MASK of R82 say: the opcode, and zero in every unused field and in bits 31:20. -/
theorem masked_iff (o : Op) (w : Word) :
    w &&& maskBits o = matchBits o ↔ opField w = opcode o ∧ unusedZero o w := by
  have hrd : (0xFFFFF0FF#32 : Word) = joinFields 0xFFF#12 0xF#4 0xF#4 0#4 0xFF#8 := by decide
  have hrs : (0xFFFF0FFF#32 : Word) = joinFields 0xFFF#12 0xF#4 0#4 0xF#4 0xFF#8 := by decide
  have h3 : (0xFFF000FF#32 : Word) = joinFields 0xFFF#12 0#4 0#4 0#4 0xFF#8 := by decide
  have hm : matchBits o = joinFields 0#12 0#4 0#4 0#4 (opcode o) := by cases o <;> decide
  have e8 : ∀ x : BitVec 8, x &&& 0xFF#8 = x := fun x => BitVec.and_allOnes
  have e4 : ∀ x : BitVec 4, x &&& 0xF#4 = x := fun x => BitVec.and_allOnes
  have e12 : ∀ x : BitVec 12, x &&& 0xFFF#12 = x := fun x => BitVec.and_allOnes
  have z4 : ∀ x : BitVec 4, x &&& 0#4 = 0#4 := fun x => BitVec.and_zero
  rw [hm]
  have mrd : (w &&& 0xFFFFF0FF#32 = joinFields 0#12 0#4 0#4 0#4 (opcode o) ↔
      opField w = opcode o ∧ w.extractLsb' 20 12 = 0#12 ∧ rs1Field w = 0#4 ∧ rs2Field w = 0#4) := by
    rw [hrd, and_join_iff, e12, e4, e4, z4, e8]
    exact ⟨fun ⟨h0, h1, h2, _, h4⟩ => ⟨h4, h0, h2, h1⟩, fun ⟨h4, h0, h2, h1⟩ => ⟨h0, h1, h2, rfl, h4⟩⟩
  have mrs : (w &&& 0xFFFF0FFF#32 = joinFields 0#12 0#4 0#4 0#4 (opcode o) ↔
      opField w = opcode o ∧ w.extractLsb' 20 12 = 0#12 ∧ rdField w = 0#4 ∧ rs2Field w = 0#4) := by
    rw [hrs, and_join_iff, e12, e4, z4, e4, e8]
    exact ⟨fun ⟨h0, h1, _, h3, h4⟩ => ⟨h4, h0, h3, h1⟩, fun ⟨h4, h0, h3, h1⟩ => ⟨h0, h1, rfl, h3, h4⟩⟩
  have m3 : (w &&& 0xFFF000FF#32 = joinFields 0#12 0#4 0#4 0#4 (opcode o) ↔
      opField w = opcode o ∧ w.extractLsb' 20 12 = 0#12 ∧ True) := by
    rw [h3, and_join_iff, e12, z4, z4, z4, e8]
    exact ⟨fun ⟨h0, _, _, _, h4⟩ => ⟨h4, h0, trivial⟩, fun ⟨h4, h0, _⟩ => ⟨h0, rfl, rfl, rfl, h4⟩⟩
  cases o with
  | zero | one | fromu8 | fromu32 | fromu64 | fromslice | fromhex | shl | shr => exact mrd
  | tohex | tou8 | tou32 | tou64 | getbyte | asbytes => exact mrs
  | add | mul => exact m3

/-- A word decodes to a command exactly when it is some row's word, and then to that row's instruction (R82). -/
theorem decode_eq_ok {w : Word} {i : Instr} :
    decode w = .ok i ↔ ∃ o, opField w = opcode o ∧ unusedZero o w ∧ i = instrOf o (rdField w) (rs1Field w) (rs2Field w) := by
  constructor
  · intro h
    rw [decode] at h
    split at h
    · cases h
    · split at h
      · rename_i o ho hm
        cases h
        have := (masked_iff o w).mp hm
        exact ⟨o, this.1, this.2, rfl⟩
      · cases h
  · rintro ⟨o, h1, h2, rfl⟩
    rw [decode, h1, opOfCode_opcode]
    simp only [if_pos ((masked_iff o w).mpr ⟨h1, h2⟩)]

/-- A word whose opcode is in the map but whose unused bits are not zero (R84). -/
theorem decode_nonzero {w : Word} {o : Op} (h : opField w = opcode o) (hn : ¬ unusedZero o w) :
    decode w = .error .nonzeroField := by
  rw [decode, h, opOfCode_opcode]
  simp only [if_neg (fun e => hn ((masked_iff o w).mp e).2)]

/-- A word whose opcode is not in the map (R84). -/
theorem decode_reserved {w : Word} (h : ∀ o, opField w ≠ opcode o) : decode w = .error .reservedOpcode := by
  have : opOfCode (opField w) = none := by
    cases hh : opOfCode (opField w) with
    | none => rfl
    | some o => exact absurd (opOfCode_eq_some.mp hh).symm (h o)
  rw [decode, this]

/-- Choosing a row keeps its operation. -/
theorem op_instrOf (o : Op) (rd rs1 rs2 : RegIdx) : (instrOf o rd rs1 rs2).op = o := by cases o <;> rfl

/-- A word is a given row's command with given register fields exactly when it matches the row and its used fields are
those (R82). -/
theorem decode_row (o : Op) (rd rs1 rs2 : RegIdx) (w : Word) :
    decode w = .ok (instrOf o rd rs1 rs2) ↔
      w &&& maskBits o = matchBits o ∧ instrOf o (rdField w) (rs1Field w) (rs2Field w) = instrOf o rd rs1 rs2 := by
  constructor
  · intro h
    obtain ⟨o', h1, h2, h3⟩ := decode_eq_ok.mp h
    have ho : o' = o := by rw [← op_instrOf o rd rs1 rs2, h3, op_instrOf]
    subst ho
    exact ⟨(masked_iff _ w).mpr ⟨h1, h2⟩, h3.symm⟩
  · rintro ⟨h1, h2⟩
    have := (masked_iff o w).mp h1
    exact decode_eq_ok.mpr ⟨o, this.1, this.2, h2.symm⟩

end Sys2Proof
end

