-- ==== Sys2Proof/Laws/Hex.lean ====
section
/-! SUPPORT. The codec's pieces: digits and their characters (41_hex_codec.md R120), the rendered text byte by byte (R122), and
the number a digit text spells (R121). -/

namespace Sys2Proof.Machine

theorem hexval_hexchar : ∀ n : BitVec 4, hexval (hexchar n) = some n.toNat := by decide

theorem hexval_lt {c : Byte} {d : Nat} (h : hexval c = some d) : d < 16 := by
  simp only [hexval] at h
  split at h
  · cases h; omega
  · split at h
    · cases h; omega
    · split at h <;> cases h; omega

theorem hexval_getD_lt (c : Byte) : (hexval c).getD 0 < 16 := by
  cases h : hexval c with
  | none => simp
  | some d => exact hexval_lt h

/-! The rendered text -/

theorem length_flatMap_pairs {α : Type} (f g : Nat → α) (n : Nat) :
    ((List.range n).flatMap (fun k => [f k, g k])).length = 2 * n := by
  induction n with
  | zero => rfl
  | succ n ih => rw [List.range_succ, List.flatMap_append, List.length_append, ih]; simp; omega

theorem getD_flatMap_pairs {α : Type} (f g : Nat → α) (d : α) {k n : Nat} (h : k < n) :
    ((List.range n).flatMap (fun k => [f k, g k])).getD (2 * k) d = f k ∧
      ((List.range n).flatMap (fun k => [f k, g k])).getD (2 * k + 1) d = g k := by
  induction n with
  | zero => omega
  | succ n ih =>
    rw [List.range_succ, List.flatMap_append]
    have hl := length_flatMap_pairs f g n
    rcases Nat.lt_succ_iff_lt_or_eq.mp h with hk | rfl
    · rw [List.getD_append _ _ _ _ (by omega), List.getD_append _ _ _ _ (by omega)]
      exact ih hk
    · rw [List.getD_append_right _ _ _ _ (by omega), List.getD_append_right _ _ _ _ (by omega), hl]
      simp

theorem length_hexText (v : Value) : (hexText v).length = 66 := by
  simp [hexText, byteText, length_flatMap_pairs (fun k => hexchar ((byteAt v (31 - k)).extractLsb' 4 4))]

theorem hexText_zero (v : Value) : (hexText v).getD 0 0#8 = 0x30#8 := rfl

theorem hexText_one (v : Value) : (hexText v).getD 1 0#8 = 0x78#8 := rfl

/-- The two digits of group k, which is byte 31 - k (R122). -/
theorem hexText_group (v : Value) {k : Nat} (h : k < 32) :
    (hexText v).getD (2 + 2 * k) 0#8 = hexchar ((byteAt v (31 - k)).extractLsb' 4 4) ∧
      (hexText v).getD (3 + 2 * k) 0#8 = hexchar ((byteAt v (31 - k)).extractLsb' 0 4) := by
  have := getD_flatMap_pairs (fun k => hexchar ((byteAt v (31 - k)).extractLsb' 4 4))
    (fun k => hexchar ((byteAt v (31 - k)).extractLsb' 0 4)) 0#8 h
  rw [show 2 + 2 * k = 2 * k + 1 + 1 by omega, show 3 + 2 * k = 2 * k + 1 + 1 + 1 by omega]
  simpa [hexText, byteText] using this

/-! The number a digit text spells -/

/-- The number of a digit text in base 16, from an accumulator. -/
theorem foldl_digits (ds : List Byte) (a : Nat) :
    ds.foldl (fun a c => a * 16 + (hexval c).getD 0) a =
      a * 16 ^ ds.length + ds.foldl (fun a c => a * 16 + (hexval c).getD 0) 0 := by
  induction ds generalizing a with
  | nil => simp
  | cons c ds ih =>
    rw [List.foldl_cons, List.foldl_cons, ih, ih (0 * 16 + _), List.length_cons, pow_succ]
    ring

theorem foldl_digits_lt (ds : List Byte) : ds.foldl (fun a c => a * 16 + (hexval c).getD 0) 0 < 16 ^ ds.length := by
  induction ds with
  | nil => simp
  | cons c ds ih =>
    rw [List.foldl_cons, foldl_digits, List.length_cons, pow_succ, Nat.zero_mul, Nat.zero_add]
    have hc := hexval_getD_lt c
    have : (hexval c).getD 0 * 16 ^ ds.length ≤ 15 * 16 ^ ds.length := Nat.mul_le_mul_right _ (by omega)
    omega

theorem toNat_groupByte (t : List Byte) (k : Nat) :
    (groupByte t k).toNat =
      (hexval (t.getD (2 * k) 0x30#8)).getD 0 * 16 + (hexval (t.getD (2 * k + 1) 0x30#8)).getD 0 := by
  have h1 := hexval_getD_lt (t.getD (2 * k) 0x30#8)
  have h2 := hexval_getD_lt (t.getD (2 * k + 1) 0x30#8)
  rw [groupByte, BitVec.toNat_ofNat]
  exact Nat.mod_eq_of_lt (by omega)

theorem groupByte_cons_cons (c0 c1 : Byte) (t : List Byte) (k : Nat) :
    groupByte (c0 :: c1 :: t) (k + 1) = groupByte t k := by
  rw [groupByte, groupByte, show 2 * (k + 1) = 2 * k + 1 + 1 by omega, List.getD_cons_succ, List.getD_cons_succ,
    List.getD_cons_succ, List.getD_cons_succ]

/-- The groups of an even-length text, last group first, sum to the number it spells (R121 steps 4, 6). -/
theorem byteSum_groups (g : Nat) (t : List Byte) (h : t.length = 2 * g) :
    byteSum (fun j => groupByte t (g - 1 - j)) g = t.foldl (fun a c => a * 16 + (hexval c).getD 0) 0 := by
  induction g generalizing t with
  | zero =>
    have : t = [] := List.length_eq_zero_iff.mp (by omega)
    subst this
    rfl
  | succ g ih =>
    match t, h with
    | c0 :: c1 :: t, h =>
      simp only [List.length_cons] at h
      rw [byteSum, List.foldl_cons, List.foldl_cons, foldl_digits, ← ih t (by omega), show t.length = 2 * g by omega]
      rw [byteSum_congr (g := fun j => groupByte t (g - 1 - j)) (fun i hi => ?_)]
      · rw [toNat_groupByte]
        simp only [Nat.add_sub_cancel, Nat.sub_self, Nat.mul_zero, List.getD_cons_zero, List.getD_cons_succ, Nat.zero_add,
          Nat.zero_mul, pow_mul]
        norm_num
        ring
      · rw [show g + 1 - 1 - i = (g - 1 - i) + 1 by omega, groupByte_cons_cons]

/-- The n lowest base-16 digits of a number, most significant first, spell it modulo 16^n. -/
theorem foldl_hexchar (v n : Nat) :
    ((List.range n).map (fun k => hexchar (BitVec.ofNat 4 (v / 16 ^ (n - 1 - k))))).foldl
        (fun a c => a * 16 + (hexval c).getD 0) 0 = v % 16 ^ n := by
  induction n with
  | zero => simp [Nat.mod_one]
  | succ n ih =>
    have ht : (List.range n).map ((fun k => hexchar (BitVec.ofNat 4 (v / 16 ^ (n + 1 - 1 - k)))) ∘ Nat.succ) =
        (List.range n).map (fun k => hexchar (BitVec.ofNat 4 (v / 16 ^ (n - 1 - k)))) :=
      List.map_congr_left (fun k _ => by
        simp only [Function.comp_apply]
        rw [show n + 1 - 1 - k.succ = n - 1 - k by omega])
    rw [List.range_succ_eq_map, List.map_cons, List.map_map, ht, List.foldl_cons, foldl_digits, ih, hexval_hexchar]
    simp only [List.length_map, List.length_range, Option.getD_some, BitVec.toNat_ofNat]
    rw [show n + 1 - 1 - 0 = n by omega, show (2 : Nat) ^ 4 = 16 by norm_num, Nat.mod_pow_succ (b := 16), Nat.zero_mul,
      Nat.zero_add, Nat.add_comm, Nat.mul_comm]

/-- Padding with a leading '0' keeps the number (R121 step 3). -/
theorem foldl_padEven (t : List Byte) :
    (padEven t).foldl (fun a c => a * 16 + (hexval c).getD 0) 0 = t.foldl (fun a c => a * 16 + (hexval c).getD 0) 0 := by
  rw [padEven]
  split
  · rfl
  · rfl

theorem length_padEven (t : List Byte) : (padEven t).length = 2 * ((t.length + 1) / 2) := by
  rw [padEven]
  split
  · simp only [List.length_cons]; omega
  · omega

/-- Bytes past the last group are zero, so the value sums the groups only. -/
theorem byteSum_truncate (f : Nat → Byte) (g n : Nat) (h : g ≤ n) :
    byteSum (fun j => if j < g then f j else 0#8) n = byteSum f g := by
  induction n with
  | zero => rw [Nat.le_zero.mp h]; rfl
  | succ n ih =>
    rcases Nat.lt_or_ge g (n + 1) with hlt | hge
    · rw [byteSum, ih (by omega), if_neg (by omega)]; simp
    · have : g = n + 1 := by omega
      subst this
      exact byteSum_congr (fun i hi => if_pos hi)

/-- The value of up to 64 digits is the number they spell (R121). -/
theorem groupsValue_padEven {t : List Byte} (h : t.length ≤ 64) :
    groupsValue (padEven t) = BitVec.ofNat 256 (t.foldl (fun a c => a * 16 + (hexval c).getD 0) 0) := by
  have hl := length_padEven t
  rw [groupsValue, ofBytes, byteSum_truncate (fun j => groupByte (padEven t) ((padEven t).length / 2 - 1 - j)) _ _ (by omega),
    byteSum_groups _ _ (by omega), foldl_padEven]

/-! The parse -/

theorem length_ioBytes (m : Memory) (n : Nat) : (ioBytes m n).length = n := by simp [ioBytes]

theorem getD_ioBytes (m : Memory) {n k : Nat} (h : k < n) : (ioBytes m n).getD k 0#8 = m.read k := by
  simp [ioBytes, List.getD_eq_getElem?_getD, h]

/-- Reading bytes that spell a list gives the list. -/
theorem ioBytes_eq {m : Memory} {l : List Byte} (h : ∀ k < l.length, m.read k = l.getD k 0#8) : ioBytes m l.length = l := by
  apply List.ext_getElem
  · exact length_ioBytes m l.length
  · intro k h1 h2
    simp only [ioBytes, List.getElem_map, List.getElem_range]
    rw [h k h2, List.getD_eq_getElem _ _ h2]

/-- With a prefix, what is left is the rest; a text of digits has no prefix of its own ('x' is no digit). -/
theorem stripPrefix_append {pre ds : List Byte} (hp : pre = [] ∨ pre = [0x30#8, 0x78#8] ∨ pre = [0x30#8, 0x58#8])
    (hd : ∀ c ∈ ds, (hexval c).isSome = true) : stripPrefix (pre ++ ds) = ds := by
  obtain rfl | rfl | rfl := hp
  · match ds with
    | [] => rfl
    | [_] => rfl
    | c0 :: c1 :: t =>
      have hc := hd c1 (by simp)
      rw [List.nil_append, stripPrefix, if_neg]
      rintro ⟨-, rfl | rfl⟩ <;> exact absurd hc (by decide)
  · simp [stripPrefix]
  · simp [stripPrefix]

theorem parseDigits_ok {ds : List Byte} (hd : ∀ c ∈ ds, (hexval c).isSome = true) (h1 : 1 ≤ ds.length) (h64 : ds.length ≤ 64) :
    parseDigits ds = .ok (BitVec.ofNat 256 (ds.foldl (fun a c => a * 16 + (hexval c).getD 0) 0)) := by
  rw [parseDigits, if_neg (by omega), if_neg (by omega), if_neg, groupsValue_padEven h64]
  rw [List.any_eq_true]
  rintro ⟨c, hc, hn⟩
  have := hd c hc
  rw [Option.isNone_iff_eq_none] at hn
  rw [hn] at this
  exact absurd this (by decide)

end Sys2Proof.Machine
end

