-- ==== Sys2Proof/Laws/Memory.lean ====
section
/-! SUPPORT. The laws of IOBUF's cell list: a read after a write, that a write leaves every other byte alone, and that the
canonical form is kept by every operation. -/

namespace Sys2Proof.Machine

theorem Memory.wfFrom_cons {lo a : Nat} {b : Byte} {m : Memory} :
    Memory.wfFrom lo ((a, b) :: m) = true ↔ lo ≤ a ∧ a < 66 ∧ b ≠ 0#8 ∧ Memory.wfFrom (a + 1) m = true := by
  change (decide (lo ≤ a) && decide (a < 66) && (b != 0#8) && Memory.wfFrom (a + 1) m) = true ↔ _
  simp [and_assoc]

theorem Memory.read_cons {a : Nat} {b : Byte} {m : Memory} {k : Nat} :
    Memory.read ((a, b) :: m) k = if a = k then b else m.read k := rfl

theorem Memory.wfFrom_mono {m : Memory} {lo lo' : Nat} (h : m.wfFrom lo = true) (hl : lo' ≤ lo) : m.wfFrom lo' = true := by
  cases m with
  | nil => rfl
  | cons c m =>
    rw [Memory.wfFrom_cons] at h ⊢
    exact ⟨by omega, h.2⟩

/-- Below its first address a canonical list reads 0. -/
theorem Memory.read_below {m : Memory} {lo k : Nat} (h : m.wfFrom lo = true) (hk : k < lo) : m.read k = 0#8 := by
  induction m generalizing lo with
  | nil => rfl
  | cons c m ih =>
    obtain ⟨ha, -, -, hm⟩ := Memory.wfFrom_cons.mp h
    rw [Memory.read_cons, if_neg (by omega)]
    exact ih hm (by omega)

/-- Past IOBUF a canonical list reads 0 (10_state.md R38). -/
theorem Memory.read_past {m : Memory} {lo k : Nat} (h : m.wfFrom lo = true) (hk : 66 ≤ k) : m.read k = 0#8 := by
  induction m generalizing lo with
  | nil => rfl
  | cons c m ih =>
    obtain ⟨-, ha, -, hm⟩ := Memory.wfFrom_cons.mp h
    rw [Memory.read_cons, if_neg (by omega)]
    exact ih hm

theorem Memory.read_insert {m : Memory} {lo : Nat} (h : m.wfFrom lo = true) (k : Nat) (b : Byte) (j : Nat) :
    (Memory.insert k b m).read j = if j = k then b else m.read j := by
  induction m generalizing lo with
  | nil =>
    by_cases hb : b = 0#8 <;> by_cases hj : j = k <;> simp [Memory.insert, Memory.read, hb, hj, eq_comm]
    omega
  | cons c m ih =>
    obtain ⟨a, c⟩ := c
    obtain ⟨hla, -, -, hm⟩ := Memory.wfFrom_cons.mp h
    have hlow : ∀ i ≤ a, Memory.read m i = 0#8 := fun i hi => Memory.read_below hm (by omega)
    simp only [Memory.insert]
    by_cases hka : k < a
    · rw [if_pos hka]
      by_cases hj : j = k
      · subst hj
        by_cases hb : b = 0#8
        · rw [if_pos hb, Memory.read_cons, if_neg (by omega), hlow j (by omega), hb]; simp
        · rw [if_neg hb, Memory.read_cons, if_pos rfl]
      · by_cases hb : b = 0#8
        · rw [if_pos hb, if_neg hj]
        · rw [if_neg hb, if_neg hj, Memory.read_cons, if_neg (fun e => hj e.symm)]
    · rw [if_neg hka]
      by_cases hk : k = a
      · subst hk
        by_cases hj : j = k
        · subst hj
          by_cases hb : b = 0#8
          · rw [if_pos rfl, if_pos hb, hb, hlow j le_rfl]; simp
          · rw [if_pos rfl, if_neg hb, Memory.read_cons, if_pos rfl]; simp
        · by_cases hb : b = 0#8
          · rw [if_pos rfl, if_pos hb, if_neg hj, Memory.read_cons, if_neg (fun e => hj e.symm)]
          · rw [if_pos rfl, if_neg hb, if_neg hj, Memory.read_cons, Memory.read_cons, if_neg (fun e => hj e.symm),
              if_neg (fun e => hj e.symm)]
      · rw [if_neg hk, Memory.read_cons, ih hm, Memory.read_cons]
        by_cases hj : j = k
        · subst hj; rw [if_neg (fun e => hk e.symm)]; simp
        · rw [if_neg hj, if_neg hj]

theorem Memory.wfFrom_insert {m : Memory} {lo k : Nat} {b : Byte} (h : m.wfFrom lo = true) (hk : k < 66) (hl : lo ≤ k) :
    (Memory.insert k b m).wfFrom lo = true := by
  induction m generalizing lo with
  | nil =>
    rw [Memory.insert]
    split
    · rfl
    · exact Memory.wfFrom_cons.mpr ⟨hl, hk, by assumption, rfl⟩
  | cons c m ih =>
    obtain ⟨a, c⟩ := c
    obtain ⟨hla, ha, hc, hm⟩ := Memory.wfFrom_cons.mp h
    simp only [Memory.insert]
    split
    · split
      · exact h
      · exact Memory.wfFrom_cons.mpr ⟨hl, hk, by assumption, Memory.wfFrom_cons.mpr ⟨by omega, ha, hc, hm⟩⟩
    · split
      · split
        · exact Memory.wfFrom_mono hm (by omega)
        · rename_i hka hb
          subst hka
          exact Memory.wfFrom_cons.mpr ⟨hl, hk, hb, hm⟩
      · exact Memory.wfFrom_cons.mpr ⟨hla, ha, hc, ih hm (by omega)⟩

/-- Every write keeps the canonical form. -/
theorem Memory.wf_write {m : Memory} (h : m.wf = true) (k : Nat) (b : Byte) : (m.write k b).wf = true := by
  rw [Memory.write]
  split
  · exact Memory.wfFrom_insert h (by assumption) (Nat.zero_le k)
  · exact h

/-- A read after a write: the byte written, every other byte as before. -/
theorem Memory.read_write {m : Memory} (h : m.wf = true) (k : Nat) (b : Byte) (j : Nat) :
    (m.write k b).read j = if j = k ∧ k < 66 then b else m.read j := by
  rw [Memory.write, show Config.ioBufBytes = 66 from rfl]
  split
  · rw [Memory.read_insert h]; simp [*]
  · simp [*]

theorem Memory.wf_writeBytes {m : Memory} (h : m.wf = true) (k : Nat) (bs : List Byte) : (m.writeBytes k bs).wf = true := by
  induction bs generalizing m k with
  | nil => exact h
  | cons b bs ih => exact ih (Memory.wf_write h k b) (k + 1)

/-- A read after a block write: byte j - k of the block inside it, the old byte outside. -/
theorem Memory.read_writeBytes {m : Memory} (h : m.wf = true) (k : Nat) (bs : List Byte) (j : Nat) :
    (m.writeBytes k bs).read j = if k ≤ j ∧ j < k + bs.length ∧ j < 66 then bs.getD (j - k) 0#8 else m.read j := by
  induction bs generalizing m k with
  | nil => simp [Memory.writeBytes]; omega
  | cons b bs ih =>
    rw [Memory.writeBytes, ih (Memory.wf_write h k b), Memory.read_write h]
    simp only [List.length_cons]
    by_cases hjk : j = k
    · subst hjk
      by_cases h66 : j < 66 <;> simp [h66]
    · by_cases hin : k + 1 ≤ j ∧ j < k + 1 + bs.length ∧ j < 66
      · rw [if_pos hin, if_pos (by omega), show j - k = (j - (k + 1)) + 1 by omega, List.getD_cons_succ]
      · rw [if_neg hin, if_neg (by omega), if_neg (by omega)]

/-- Two canonical lists that read alike are the same list: equal memories are equal data. -/
theorem Memory.ext_of_wfFrom {m m' : Memory} {lo : Nat} (h : m.wfFrom lo = true) (h' : m'.wfFrom lo = true)
    (hr : ∀ k, m.read k = m'.read k) : m = m' := by
  induction m generalizing m' lo with
  | nil =>
    cases m' with
    | nil => rfl
    | cons c m' =>
      have := hr c.1
      rw [Memory.read_cons, if_pos rfl] at this
      exact absurd this.symm (Memory.wfFrom_cons.mp h').2.2.1
  | cons c m ih =>
    obtain ⟨a, b⟩ := c
    obtain ⟨-, -, hb, hm⟩ := Memory.wfFrom_cons.mp h
    cases m' with
    | nil =>
      have := hr a
      rw [Memory.read_cons, if_pos rfl] at this
      exact absurd this hb
    | cons c' m' =>
      obtain ⟨a', b'⟩ := c'
      obtain ⟨-, -, hb', hm'⟩ := Memory.wfFrom_cons.mp h'
      have haa : a = a' := by
        rcases Nat.lt_trichotomy a a' with hlt | heq | hgt
        · have := hr a
          rw [Memory.read_cons, if_pos rfl, Memory.read_cons, if_neg (by omega), Memory.read_below hm' (by omega)] at this
          exact absurd this hb
        · exact heq
        · have := hr a'
          rw [Memory.read_cons, if_neg (by omega), Memory.read_below hm (by omega), Memory.read_cons, if_pos rfl] at this
          exact absurd this.symm hb'
      subst haa
      have hbb := hr a
      rw [Memory.read_cons, if_pos rfl, Memory.read_cons, if_pos rfl] at hbb
      subst hbb
      congr 1
      refine ih hm hm' (fun k => ?_)
      by_cases hk : a = k
      · subst hk
        rw [Memory.read_below hm (by omega), Memory.read_below hm' (by omega)]
      · have := hr k
        rwa [Memory.read_cons, if_neg hk, Memory.read_cons, if_neg hk] at this

theorem Memory.ext_of_wf {m m' : Memory} (h : m.wf = true) (h' : m'.wf = true) (hr : ∀ k, m.read k = m'.read k) : m = m' :=
  Memory.ext_of_wfFrom h h' hr

end Sys2Proof.Machine
end

