-- ==== Sys2Proof/Laws/State.lean ====
section
/-! SUPPORT. One lemma per field per update of State, each true by rfl, so that no later proof unfolds a record update. -/

namespace Sys2Proof.Machine

/-! State.setV -/

@[simp] theorem State.setV_vregs (s : State) (r : RegIdx) (v : Value) : (s.setV r v).vregs = s.vregs.set r.toNat v := rfl

@[simp] theorem State.setV_opa (s : State) (r : RegIdx) (v : Value) : (s.setV r v).opa = s.opa := rfl

@[simp] theorem State.setV_res (s : State) (r : RegIdx) (v : Value) : (s.setV r v).res = s.res := rfl

@[simp] theorem State.setV_iolen (s : State) (r : RegIdx) (v : Value) : (s.setV r v).iolen = s.iolen := rfl

@[simp] theorem State.setV_iobuf (s : State) (r : RegIdx) (v : Value) : (s.setV r v).iobuf = s.iobuf := rfl

@[simp] theorem State.setV_cmd (s : State) (r : RegIdx) (v : Value) : (s.setV r v).cmd = s.cmd := rfl

@[simp] theorem State.setV_status (s : State) (r : RegIdx) (v : Value) : (s.setV r v).status = s.status := rfl

@[simp] theorem State.setV_pending (s : State) (r : RegIdx) (v : Value) : (s.setV r v).pending = s.pending := rfl

@[simp] theorem State.setV_reads (s : State) (r : RegIdx) (v : Value) : (s.setV r v).reads = s.reads := rfl

/-! State.setRes -/

@[simp] theorem State.setRes_vregs (s : State) (v : Native) : (s.setRes v).vregs = s.vregs := rfl

@[simp] theorem State.setRes_opa (s : State) (v : Native) : (s.setRes v).opa = s.opa := rfl

@[simp] theorem State.setRes_res (s : State) (v : Native) : (s.setRes v).res = v := rfl

@[simp] theorem State.setRes_iolen (s : State) (v : Native) : (s.setRes v).iolen = s.iolen := rfl

@[simp] theorem State.setRes_iobuf (s : State) (v : Native) : (s.setRes v).iobuf = s.iobuf := rfl

@[simp] theorem State.setRes_cmd (s : State) (v : Native) : (s.setRes v).cmd = s.cmd := rfl

@[simp] theorem State.setRes_status (s : State) (v : Native) : (s.setRes v).status = s.status := rfl

@[simp] theorem State.setRes_pending (s : State) (v : Native) : (s.setRes v).pending = s.pending := rfl

@[simp] theorem State.setRes_reads (s : State) (v : Native) : (s.setRes v).reads = s.reads := rfl

/-! State.exportBytes -/

@[simp] theorem State.exportBytes_vregs (s : State) (bs : List Byte) : (s.exportBytes bs).vregs = s.vregs := rfl

@[simp] theorem State.exportBytes_opa (s : State) (bs : List Byte) : (s.exportBytes bs).opa = s.opa := rfl

@[simp] theorem State.exportBytes_res (s : State) (bs : List Byte) : (s.exportBytes bs).res = s.res := rfl

@[simp] theorem State.exportBytes_iolen (s : State) (bs : List Byte) : (s.exportBytes bs).iolen = BitVec.ofNat 16 bs.length := rfl

@[simp] theorem State.exportBytes_iobuf (s : State) (bs : List Byte) : (s.exportBytes bs).iobuf = s.iobuf.writeBytes 0 bs := rfl

@[simp] theorem State.exportBytes_cmd (s : State) (bs : List Byte) : (s.exportBytes bs).cmd = s.cmd := rfl

@[simp] theorem State.exportBytes_status (s : State) (bs : List Byte) : (s.exportBytes bs).status = s.status := rfl

@[simp] theorem State.exportBytes_pending (s : State) (bs : List Byte) : (s.exportBytes bs).pending = s.pending := rfl

@[simp] theorem State.exportBytes_reads (s : State) (bs : List Byte) : (s.exportBytes bs).reads = s.reads := rfl

/-! raise -/

@[simp] theorem raise_vregs (op : BitVec 8) (k : ErrKind) (c : BitVec 4) (s : State) : (raise op k c s).vregs = s.vregs := rfl

@[simp] theorem raise_opa (op : BitVec 8) (k : ErrKind) (c : BitVec 4) (s : State) : (raise op k c s).opa = s.opa := rfl

@[simp] theorem raise_res (op : BitVec 8) (k : ErrKind) (c : BitVec 4) (s : State) : (raise op k c s).res = s.res := rfl

@[simp] theorem raise_iolen (op : BitVec 8) (k : ErrKind) (c : BitVec 4) (s : State) : (raise op k c s).iolen = s.iolen := rfl

@[simp] theorem raise_iobuf (op : BitVec 8) (k : ErrKind) (c : BitVec 4) (s : State) : (raise op k c s).iobuf = s.iobuf := rfl

@[simp] theorem raise_cmd (op : BitVec 8) (k : ErrKind) (c : BitVec 4) (s : State) : (raise op k c s).cmd = s.cmd := rfl

@[simp] theorem raise_status (op : BitVec 8) (k : ErrKind) (c : BitVec 4) (s : State) : (raise op k c s).status = failureReport op k c := rfl

@[simp] theorem raise_pending (op : BitVec 8) (k : ErrKind) (c : BitVec 4) (s : State) : (raise op k c s).pending = s.pending := rfl

@[simp] theorem raise_reads (op : BitVec 8) (k : ErrKind) (c : BitVec 4) (s : State) : (raise op k c s).reads = s.reads := rfl

/-! complete -/

@[simp] theorem complete_vregs (op : BitVec 8) (s : State) : (complete op s).vregs = s.vregs := rfl

@[simp] theorem complete_opa (op : BitVec 8) (s : State) : (complete op s).opa = s.opa := rfl

@[simp] theorem complete_res (op : BitVec 8) (s : State) : (complete op s).res = s.res := rfl

@[simp] theorem complete_iolen (op : BitVec 8) (s : State) : (complete op s).iolen = s.iolen := rfl

@[simp] theorem complete_iobuf (op : BitVec 8) (s : State) : (complete op s).iobuf = s.iobuf := rfl

@[simp] theorem complete_cmd (op : BitVec 8) (s : State) : (complete op s).cmd = s.cmd := rfl

@[simp] theorem complete_status (op : BitVec 8) (s : State) : (complete op s).status = successReport op s.status := rfl

@[simp] theorem complete_pending (op : BitVec 8) (s : State) : (complete op s).pending = s.pending := rfl

@[simp] theorem complete_reads (op : BitVec 8) (s : State) : (complete op s).reads = s.reads := rfl

/-! platformReset -/

@[simp] theorem platformReset_vregs (s : State) : (platformReset s).vregs = List.replicate s.numVRegs 0#256 := rfl

@[simp] theorem platformReset_opa (s : State) : (platformReset s).opa = 0#64 := rfl

@[simp] theorem platformReset_res (s : State) : (platformReset s).res = 0#64 := rfl

@[simp] theorem platformReset_iolen (s : State) : (platformReset s).iolen = 0#16 := rfl

@[simp] theorem platformReset_iobuf (s : State) : (platformReset s).iobuf = [] := rfl

@[simp] theorem platformReset_cmd (s : State) : (platformReset s).cmd = 0#32 := rfl

@[simp] theorem platformReset_status (s : State) : (platformReset s).status = ⟨.none, 0#4, 0#8, false⟩ := rfl

@[simp] theorem platformReset_pending (s : State) : (platformReset s).pending = s.pending := rfl

@[simp] theorem platformReset_reads (s : State) : (platformReset s).reads = s.reads := rfl

/-! performRead -/

@[simp] theorem performRead_vregs (off : Nat) (s : State) : (performRead off s).vregs = s.vregs := rfl

@[simp] theorem performRead_opa (off : Nat) (s : State) : (performRead off s).opa = s.opa := rfl

@[simp] theorem performRead_res (off : Nat) (s : State) : (performRead off s).res = s.res := rfl

@[simp] theorem performRead_iolen (off : Nat) (s : State) : (performRead off s).iolen = s.iolen := rfl

@[simp] theorem performRead_iobuf (off : Nat) (s : State) : (performRead off s).iobuf = s.iobuf := rfl

@[simp] theorem performRead_cmd (off : Nat) (s : State) : (performRead off s).cmd = s.cmd := rfl

@[simp] theorem performRead_status (off : Nat) (s : State) : (performRead off s).status = s.status := rfl

@[simp] theorem performRead_pending (off : Nat) (s : State) : (performRead off s).pending = s.pending := rfl

@[simp] theorem performRead_reads (off : Nat) (s : State) : (performRead off s).reads = s.reads ++ [readReg s (regAt off)] := rfl

/-! Reading a value register -/

@[simp] theorem raise_getV (op : BitVec 8) (k : ErrKind) (c : BitVec 4) (s : State) (r : RegIdx) :
    (raise op k c s).getV r = s.getV r := rfl

@[simp] theorem complete_getV (op : BitVec 8) (s : State) (r : RegIdx) : (complete op s).getV r = s.getV r := rfl

@[simp] theorem State.setRes_getV (s : State) (v : Native) (r : RegIdx) : (s.setRes v).getV r = s.getV r := rfl

@[simp] theorem State.exportBytes_getV (s : State) (bs : List Byte) (r : RegIdx) : (s.exportBytes bs).getV r = s.getV r := rfl

/-- The register just written. -/
theorem State.setV_getV_same {s : State} {r : RegIdx} (h : r.toNat < s.vregs.length) (v : Value) : (s.setV r v).getV r = v := by
  simp [State.getV, List.getD_eq_getElem?_getD, h]

/-- Every other register. -/
theorem State.setV_getV_other {s : State} {r r' : RegIdx} (h : r' ≠ r) (v : Value) : (s.setV r v).getV r' = s.getV r' := by
  have hn : r.toNat ≠ r'.toNat := fun e => h (BitVec.eq_of_toNat_eq e.symm)
  simp [State.getV, List.getD_eq_getElem?_getD, List.getElem?_set_ne hn]

/-! The two reports -/

@[simp] theorem failureReport_err (op : BitVec 8) (k : ErrKind) (c : BitVec 4) : (failureReport op k c).err = k := rfl

@[simp] theorem failureReport_cause (op : BitVec 8) (k : ErrKind) (c : BitVec 4) : (failureReport op k c).cause = c := rfl

@[simp] theorem failureReport_opc (op : BitVec 8) (k : ErrKind) (c : BitVec 4) : (failureReport op k c).opc = op := rfl

@[simp] theorem failureReport_sticky (op : BitVec 8) (k : ErrKind) (c : BitVec 4) : (failureReport op k c).sticky = true := rfl

@[simp] theorem successReport_err (op : BitVec 8) (st : Status) : (successReport op st).err = .none := rfl

@[simp] theorem successReport_cause (op : BitVec 8) (st : Status) : (successReport op st).cause = 0#4 := rfl

@[simp] theorem successReport_opc (op : BitVec 8) (st : Status) : (successReport op st).opc = op := rfl

@[simp] theorem successReport_sticky (op : BitVec 8) (st : Status) : (successReport op st).sticky = st.sticky := rfl

end Sys2Proof.Machine
end

