-- ==== Sys2Proof/Laws/Ops.lean ====
section
/-! SUPPORT. What the shared operations can do, said once: the range check, every command's possible next states, one word
written to CMD, one event, one step. Proofs cite these and unfold no meaning. -/

namespace Sys2Proof.Machine

theorem guarded_inRange {op : Op} {rs : List RegIdx} {s : State} (h : regsOk s.numVRegs rs = true) (run : State) :
    guarded op rs s run = .next run := by rw [guarded, if_pos h]

theorem guarded_outOfRange {op : Op} {rs : List RegIdx} {s : State} (h : ¬ regsOk s.numVRegs rs = true) (run : State) :
    guarded op rs s run = .next (raise (opcode op) .illegal causeRegRange s) := by rw [guarded, if_neg h]

theorem regsOk_one {n : Nat} {r : RegIdx} : regsOk n [r] = true ↔ r.toNat < n := by simp [regsOk, regOk]

theorem regsOk_three {n : Nat} {a b c : RegIdx} :
    regsOk n [a, b, c] = true ↔ a.toNat < n ∧ b.toNat < n ∧ c.toNat < n := by simp [regsOk, regOk]

/-- How a command can end. -/
inductive Ends (i : Instr) (s : State) : State → Prop where
  /-- it fails: STATUS only (60_exceptions.md R203) -/
  | failed (k : ErrKind) (c : BitVec 4) (hk : k ≠ .none) (legal : (failureReport (opcode i.op) k c).legal = true) :
      Ends i s (raise (opcode i.op) k c s)
  /-- it writes one value register (10_state.md R23) -/
  | wroteV (r : RegIdx) (v : Value) (hr : i.regs.head? = some r) (range : r.toNat < s.vregs.length)
      (hop : i.op ∈ [Op.zero, .one, .fromu8, .fromu32, .fromu64, .fromslice, .fromhex, .shl, .shr, .add]) :
      Ends i s (complete (opcode i.op) (s.setV r v))
  /-- it writes RES (10_state.md R25) -/
  | wroteRes (v : Native) (hop : i.op ∈ [Op.tou8, .tou32, .tou64, .getbyte]) :
      Ends i s (complete (opcode i.op) (s.setRes v))
  /-- it writes IOBUF from byte 0 and IOLEN (10_state.md R26, R27) -/
  | exported (bs : List Byte) (hop : i.op ∈ [Op.tohex, .asbytes]) :
      Ends i s (complete (opcode i.op) (s.exportBytes bs))

theorem guarded_ends {i : Instr} {s run : State} (hr : regsOk s.numVRegs i.regs = true → Ends i s run) :
    ∃ t, guarded i.op i.regs s run = .next t ∧ Ends i s t := by
  by_cases h : regsOk s.numVRegs i.regs = true
  · exact ⟨run, guarded_inRange h run, hr h⟩
  · refine ⟨_, guarded_outOfRange h run, .failed .illegal causeRegRange (by decide) ?_⟩
    cases i.op <;> decide

theorem construct_ends {i : Instr} {s : State} {r : RegIdx} (v : Value) (hr : i.regs = [r])
    (hop : i.op ∈ [Op.zero, .one, .fromu8, .fromu32, .fromu64, .fromslice, .fromhex, .shl, .shr, .add]) :
    ∃ t, guarded i.op i.regs s (complete (opcode i.op) (s.setV r v)) = .next t ∧ Ends i s t :=
  guarded_ends (fun h => .wroteV r v (by rw [hr]; rfl) (regsOk_one.mp (hr ▸ h)) hop)

theorem parseDigits_error {t : List Byte} {c : BitVec 4} (h : parseDigits t = .error c) : c = 1#4 ∨ c = 2#4 ∨ c = 3#4 := by
  simp only [parseDigits] at h
  split at h
  · cases h; exact .inl rfl
  · split at h
    · cases h; exact .inr (.inr rfl)
    · split at h
      · cases h; exact .inr (.inl rfl)
      · cases h

theorem parseHex_error {m : Memory} {n : Nat} {c : BitVec 4} (h : parseHex m n = .error c) : c = 1#4 ∨ c = 2#4 ∨ c = 3#4 := by
  rw [parseHex] at h
  split at h
  · cases h; exact .inr (.inr rfl)
  · exact parseDigits_error h

theorem fromhex_ends (rd : RegIdx) (s : State) : ∃ t, exec (.fromhex rd) s = .next t ∧ Ends (.fromhex rd) s t := by
  refine guarded_ends (i := .fromhex rd) (fun h => ?_)
  cases hp : parseHex s.iobuf s.iolen.toNat with
  | ok v => exact .wroteV (i := .fromhex rd) rd v rfl (regsOk_one.mp h) (by simp [Instr.op])
  | error c =>
    refine .failed (i := .fromhex rd) .construction c (by decide) ?_
    obtain rfl | rfl | rfl := parseHex_error hp <;> rfl

theorem fromslice_ends (rd : RegIdx) (s : State) : ∃ t, exec (.fromslice rd) s = .next t ∧ Ends (.fromslice rd) s t := by
  refine guarded_ends (i := .fromslice rd) (fun h => ?_)
  split
  · exact .failed (i := .fromslice rd) .construction causeSliceTooWide (by decide) rfl
  · exact .wroteV (i := .fromslice rd) rd _ rfl (regsOk_one.mp h) (by simp [Instr.op])

theorem narrow_ends {i : Instr} {s : State} {r : RegIdx} (k : Nat) (hr : i.regs = [r])
    (hop : i.op ∈ [Op.tou8, .tou32, .tou64]) : ∃ t, narrow i.op k r s = .next t ∧ Ends i s t := by
  rw [narrow, ← hr]
  refine guarded_ends (fun h => ?_)
  split
  · exact .wroteRes _ (by simp only [List.mem_cons] at hop ⊢; tauto)
  · refine .failed .overflow causeNone (by decide) ?_
    simp only [List.mem_cons, List.not_mem_nil, or_false] at hop
    obtain h | h | h := hop <;> rw [h] <;> rfl

theorem getbyte_ends (r : RegIdx) (s : State) : ∃ t, exec (.getbyte r) s = .next t ∧ Ends (.getbyte r) s t := by
  refine guarded_ends (i := .getbyte r) (fun h => ?_)
  split
  · exact .failed (i := .getbyte r) .index causeNone (by decide) rfl
  · exact .wroteRes (i := .getbyte r) _ (by simp [Instr.op])

/-- Every command completes, in one of the four ways. -/
theorem exec_ends (i : Instr) (s : State) : ∃ t, exec i s = .next t ∧ Ends i s t := by
  cases i with
  | zero rd => exact construct_ends (i := .zero rd) _ rfl (by simp [Instr.op])
  | one rd => exact construct_ends (i := .one rd) _ rfl (by simp [Instr.op])
  | fromu8 rd => exact construct_ends (i := .fromu8 rd) _ rfl (by simp [Instr.op])
  | fromu32 rd => exact construct_ends (i := .fromu32 rd) _ rfl (by simp [Instr.op])
  | fromu64 rd => exact construct_ends (i := .fromu64 rd) _ rfl (by simp [Instr.op])
  | fromslice rd => exact fromslice_ends rd s
  | fromhex rd => exact fromhex_ends rd s
  | tohex rs1 => exact guarded_ends (i := .tohex rs1) (fun _ => .exported (i := .tohex rs1) _ (by simp [Instr.op]))
  | shl rd => exact construct_ends (i := .shl rd) _ rfl (by simp [Instr.op])
  | shr rd => exact construct_ends (i := .shr rd) _ rfl (by simp [Instr.op])
  | add rd rs1 rs2 =>
    exact guarded_ends (i := .add rd rs1 rs2)
      (fun h => .wroteV (i := .add rd rs1 rs2) rd _ rfl (regsOk_three.mp h).1 (by simp [Instr.op]))
  | mul rd rs1 rs2 =>
    exact guarded_ends (i := .mul rd rs1 rs2)
      (fun _ => .failed (i := .mul rd rs1 rs2) .unimplemented causeNone (by decide) rfl)
  | tou8 rs1 => exact narrow_ends (i := .tou8 rs1) 1 rfl (by simp [Instr.op])
  | tou32 rs1 => exact narrow_ends (i := .tou32 rs1) 4 rfl (by simp [Instr.op])
  | tou64 rs1 => exact narrow_ends (i := .tou64 rs1) 8 rfl (by simp [Instr.op])
  | getbyte rs1 => exact getbyte_ends rs1 s
  | asbytes rs1 => exact guarded_ends (i := .asbytes rs1) (fun _ => .exported (i := .asbytes rs1) _ (by simp [Instr.op]))

theorem ends_of_exec {i : Instr} {s t : State} (h : exec i s = .next t) : Ends i s t := by
  obtain ⟨u, hu, he⟩ := exec_ends i s
  rw [h] at hu
  cases hu
  exact he

/-- One word written to CMD: an illegal word's report, or the command it encodes (30_encoding.md R83). -/
inductive Executes (w : Word) (s : State) : State → Prop where
  | reserved (h : decode w = .error .reservedOpcode) :
      Executes w s (raise (opField w) .illegal causeReservedOpcode s)
  | nonzero (h : decode w = .error .nonzeroField) : Executes w s (raise (opField w) .illegal causeNonzeroField s)
  | ran (i : Instr) (t : State) (h : decode w = .ok i) (he : Ends i s t) : Executes w s t

theorem execute_executes (w : Word) (s : State) : ∃ t, execute w s = .next t ∧ Executes w s t := by
  rw [execute]
  cases h : decode w with
  | error e =>
    cases e with
    | reservedOpcode => exact ⟨_, rfl, .reserved h⟩
    | nonzeroField => exact ⟨_, rfl, .nonzero h⟩
  | ok i =>
    obtain ⟨t, ht, he⟩ := exec_ends i s
    exact ⟨t, ht, .ran i t h he⟩

/-- What one event does to the block, when it is a defined access or a reset. -/
inductive Performs (s : State) : HostEvent → State → Prop where
  | read (off : Nat) (h4 : off % 4 = 0) (hw : off < 0x100) : Performs s (.read off 4) (performRead off s)
  | store (off : Nat) (w : Word) (h4 : off % 4 = 0) (hw : off < 0x100) (hc : regAt off ≠ .cmd) :
      Performs s (.write off 4 w) (storeReg s (regAt off) w)
  | command (off : Nat) (w : Word) (t : State) (h4 : off % 4 = 0) (hw : off < 0x100) (hc : regAt off = .cmd)
      (he : Executes w { s with cmd := w } t) : Performs s (.write off 4 w) t
  | reset : Performs s .reset (platformReset s)

theorem performs_of_perform {e : HostEvent} {s t : State} (h : perform e s = .next t) : Performs s e t := by
  cases e with
  | read off width =>
    simp only [perform, checkedAccess] at h
    split at h
    · split at h
      · rename_i h4 hw
        cases h
        obtain ⟨rfl, h4⟩ := h4
        exact .read off h4 hw
      · cases h
    · cases h
  | write off width w =>
    simp only [perform, checkedAccess] at h
    split at h
    · split at h
      · rename_i h4 hw
        obtain ⟨rfl, h4⟩ := h4
        rw [performWrite] at h
        split at h
        · rename_i hc
          obtain ⟨u, hu, hx⟩ := execute_executes w (storeReg s .cmd w)
          rw [hu] at h
          cases h
          exact .command off w _ h4 hw hc hx
        · cases h
          exact .store off w h4 hw (by assumption)
      · cases h
    · cases h
  | reset =>
    simp only [perform] at h
    cases h
    exact .reset

/-- One step: nothing waits and nothing changes, or the first event is performed. -/
theorem step_cases {s t : State} (h : step s = .next t) :
    (s.pending = [] ∧ t = s) ∨ ∃ e rest, s.pending = e :: rest ∧ Performs { s with pending := rest } e t := by
  rw [step] at h
  split at h
  · cases h
    exact .inl ⟨by assumption, rfl⟩
  · exact .inr ⟨_, _, by assumption, performs_of_perform h⟩

end Sys2Proof.Machine
end

