-- ==== Sys2Proof/Laws/Exec.lean ====
section
/-! SUPPORT. What each command answers when its register fields are in range, as one equation a command, and what IOBUF
reads after an export. Proofs about a command cite these and unfold no meaning. -/

namespace Sys2Proof.Machine

theorem regsOk_of_lt {s : State} {r : RegIdx} (h : r.toNat < s.vregs.length) : regsOk s.numVRegs [r] = true := regsOk_one.mpr h

theorem regsOk_of_lt3 {s : State} {a b c : RegIdx} (ha : a.toNat < s.vregs.length) (hb : b.toNat < s.vregs.length)
    (hc : c.toNat < s.vregs.length) : regsOk s.numVRegs [a, b, c] = true := regsOk_three.mpr ⟨ha, hb, hc⟩

/-- A command with a register out of range, whatever command it is (30_encoding.md R83). -/
theorem exec_outOfRange {i : Instr} {s : State} (h : ¬ regsOk s.numVRegs i.regs = true) :
    exec i s = .next (raise (opcode i.op) .illegal causeRegRange s) := by
  cases i <;> exact guarded_outOfRange h _

/-! Construction -/

theorem exec_zero {s : State} {rd : RegIdx} (h : rd.toNat < s.vregs.length) :
    exec (.zero rd) s = .next (complete 0x01#8 (s.setV rd 0#256)) := by
  rw [show (0#256 : Value) = ofBytes (fun _ => 0#8) by decide]
  exact guarded_inRange (regsOk_of_lt h) _

theorem exec_one {s : State} {rd : RegIdx} (h : rd.toNat < s.vregs.length) :
    exec (.one rd) s = .next (complete 0x02#8 (s.setV rd 1#256)) := by
  rw [show (1#256 : Value) = ofBytes (fun i => if i = 0 then 0x01#8 else 0#8) by decide]
  exact guarded_inRange (regsOk_of_lt h) _

theorem exec_fromu8 {s : State} {rd : RegIdx} (h : rd.toNat < s.vregs.length) :
    exec (.fromu8 rd) s = .next (complete 0x03#8 (s.setV rd (nativePlacement 1 s.opa))) := guarded_inRange (regsOk_of_lt h) _

theorem exec_fromu32 {s : State} {rd : RegIdx} (h : rd.toNat < s.vregs.length) :
    exec (.fromu32 rd) s = .next (complete 0x04#8 (s.setV rd (nativePlacement 4 s.opa))) := guarded_inRange (regsOk_of_lt h) _

theorem exec_fromu64 {s : State} {rd : RegIdx} (h : rd.toNat < s.vregs.length) :
    exec (.fromu64 rd) s = .next (complete 0x05#8 (s.setV rd (nativePlacement 8 s.opa))) := guarded_inRange (regsOk_of_lt h) _

theorem exec_fromslice {s : State} {rd : RegIdx} (h : rd.toNat < s.vregs.length) :
    exec (.fromslice rd) s =
      .next (if 32 < s.iolen.toNat then raise 0x06#8 .construction causeSliceTooWide s
        else complete 0x06#8 (s.setV rd (sliceValue s.iobuf s.iolen.toNat))) := guarded_inRange (regsOk_of_lt h) _

/-! Hexadecimal codec -/

theorem exec_fromhex {s : State} {rd : RegIdx} (h : rd.toNat < s.vregs.length) :
    exec (.fromhex rd) s =
      .next (match parseHex s.iobuf s.iolen.toNat with
        | .error c => raise 0x10#8 .construction c s
        | .ok v => complete 0x10#8 (s.setV rd v)) := guarded_inRange (regsOk_of_lt h) _

theorem exec_tohex {s : State} {r : RegIdx} (h : r.toNat < s.vregs.length) :
    exec (.tohex r) s = .next (complete 0x11#8 (s.exportBytes (hexText (s.getV r)))) := guarded_inRange (regsOk_of_lt h) _

/-- IOBUF after TOHEX: the text, and past it what was there (it covers all 66 bytes). -/
theorem read_export_hexText {m : Memory} (hw : m.wf = true) (v : Value) (k : Nat) :
    (m.writeBytes 0 (hexText v)).read k = if k < 66 then (hexText v).getD k 0#8 else m.read k := by
  rw [Memory.read_writeBytes hw]
  simp only [length_hexText]
  by_cases h : k < 66
  · rw [if_pos (by omega), if_pos h]; rfl
  · rw [if_neg (by omega), if_neg h]

theorem stripPrefix_hexText (v : Value) :
    stripPrefix (hexText v) = (List.range 32).flatMap (fun k => byteText (byteAt v (31 - k))) := by
  simp [hexText, stripPrefix]

/-- A prefix is two characters or none. -/
theorem stripPrefix_eq_drop (l : List Byte) :
    stripPrefix l =
      l.drop (if 2 ≤ l.length ∧ l.getD 0 0#8 = 0x30#8 ∧ (l.getD 1 0#8 = 0x78#8 ∨ l.getD 1 0#8 = 0x58#8) then 2 else 0) := by
  match l with
  | [] => rfl
  | [_] => simp [stripPrefix]
  | c0 :: c1 :: t =>
    simp only [stripPrefix, List.length_cons, List.getD_cons_zero, List.getD_cons_succ]
    split
    · rw [if_pos ⟨by omega, by assumption⟩]; rfl
    · rw [if_neg (fun hh => by tauto)]; rfl

/-- The 64 digits TOHEX renders parse back to the value (41_hex_codec.md R123). -/
theorem parseDigits_rendered (v : Value) :
    parseDigits ((List.range 32).flatMap (fun k => byteText (byteAt v (31 - k)))) = .ok v := by
  have hl : ((List.range 32).flatMap (fun k => byteText (byteAt v (31 - k)))).length = 64 := length_flatMap_pairs _ _ 32
  have hd : ∀ c ∈ (List.range 32).flatMap (fun k => byteText (byteAt v (31 - k))), (hexval c).isSome = true := by
    intro c hc
    rw [List.mem_flatMap] at hc
    obtain ⟨k, -, hc⟩ := hc
    simp only [byteText, List.mem_cons, List.not_mem_nil, or_false] at hc
    rcases hc with rfl | rfl <;> rw [hexval_hexchar] <;> rfl
  rw [parseDigits_ok hd (by omega) (by omega), ← groupsValue_padEven (by omega)]
  congr 1
  rw [padEven, if_neg (by omega), groupsValue, hl, ofBytes_eq_iff]
  intro j hj
  rw [if_pos (by omega)]
  apply BitVec.eq_of_toNat_eq
  rw [toNat_groupByte]
  have := getD_flatMap_pairs (fun k => hexchar ((byteAt v (31 - k)).extractLsb' 4 4))
    (fun k => hexchar ((byteAt v (31 - k)).extractLsb' 0 4)) 0x30#8 (k := 64 / 2 - 1 - j) (n := 32) (by omega)
  unfold byteText
  rw [this.1, this.2, hexval_hexchar, hexval_hexchar]
  simp only [Option.getD_some]
  rw [show 31 - (64 / 2 - 1 - j) = j by omega]
  generalize byteAt v j = b
  revert b
  decide

/-! Shifts -/

theorem exec_shl {s : State} {rd : RegIdx} (h : rd.toNat < s.vregs.length) :
    exec (.shl rd) s = .next (complete 0x20#8 (s.setV rd (s.getV rd <<< s.opa.toNat))) := by
  rw [← shiftLeft_eq]; exact guarded_inRange (regsOk_of_lt h) _

theorem exec_shr {s : State} {rd : RegIdx} (h : rd.toNat < s.vregs.length) :
    exec (.shr rd) s = .next (complete 0x21#8 (s.setV rd (s.getV rd >>> s.opa.toNat))) := by
  rw [← shiftRight_eq]; exact guarded_inRange (regsOk_of_lt h) _

/-! Addition, multiplication, narrowing, byte access -/

theorem exec_add {s : State} {rd a b : RegIdx} (h : rd.toNat < s.vregs.length) (ha : a.toNat < s.vregs.length)
    (hb : b.toNat < s.vregs.length) :
    exec (.add rd a b) s = .next (complete 0x30#8 (s.setV rd (s.getV a + s.getV b))) := by
  rw [← rippleAdd_eq_add]; exact guarded_inRange (regsOk_of_lt3 h ha hb) _

theorem exec_mul {s : State} {rd a b : RegIdx} (h : rd.toNat < s.vregs.length) (ha : a.toNat < s.vregs.length)
    (hb : b.toNat < s.vregs.length) : exec (.mul rd a b) s = .next (raise 0x31#8 .unimplemented causeNone s) :=
  guarded_inRange (regsOk_of_lt3 h ha hb) _

/-- The three narrowing commands (43_add_narrow.md R164 to R167). -/
theorem narrow_inRange {s : State} {r : RegIdx} (h : r.toNat < s.vregs.length) (op : Op) (k : Nat) :
    narrow op k r s =
      .next (if highBytesZero k (s.getV r) then
          complete (opcode op) (s.setRes (BitVec.ofNat 64 (byteSum (byteAt (s.getV r)) k)))
        else raise (opcode op) .overflow causeNone s) := guarded_inRange (regsOk_of_lt h) _

theorem exec_tou8 (r : RegIdx) (s : State) : exec (.tou8 r) s = narrow .tou8 1 r s := rfl

theorem exec_tou32 (r : RegIdx) (s : State) : exec (.tou32 r) s = narrow .tou32 4 r s := rfl

theorem exec_tou64 (r : RegIdx) (s : State) : exec (.tou64 r) s = narrow .tou64 8 r s := rfl

theorem exec_getbyte {s : State} {r : RegIdx} (h : r.toNat < s.vregs.length) :
    exec (.getbyte r) s =
      .next (if 32 ≤ s.opa.toNat then raise 0x43#8 .index causeNone s
        else complete 0x43#8 (s.setRes ((byteAt (s.getV r) s.opa.toNat).zeroExtend 64))) := guarded_inRange (regsOk_of_lt h) _

theorem exec_asbytes {s : State} {r : RegIdx} (h : r.toNat < s.vregs.length) :
    exec (.asbytes r) s = .next (complete 0x44#8 (s.exportBytes ((List.range 32).map (byteAt (s.getV r))))) :=
  guarded_inRange (regsOk_of_lt h) _

/-- IOBUF after ASBYTES: the 32 bytes, and past them what was there. -/
theorem read_export_bytes {m : Memory} (hw : m.wf = true) (v : Value) (k : Nat) :
    (m.writeBytes 0 ((List.range 32).map (byteAt v))).read k = if k < 32 then byteAt v k else m.read k := by
  rw [Memory.read_writeBytes hw]
  simp only [List.length_map, List.length_range]
  by_cases h : k < 32
  · rw [if_pos (by omega), if_pos h, Nat.sub_zero]
    simp [List.getD_eq_getElem?_getD, h]
  · rw [if_neg (by omega), if_neg h]

end Sys2Proof.Machine
end

