-- ==== Sys2Proof/Laws/PerInstr.lean ====
section
/-! SUPPORT. The family EncodeMatches: the encoded word of every command carries the command's opcode and matches its row of
the opcode map (30_encoding.md R82), one lemma per constructor. -/

namespace Sys2Proof.Laws

/-- The word of `i` has the opcode bits of its row and equals MATCH under MASK. -/
def EncodeMatches.Statement (i : Instr) : Prop :=
  opField (encode i) = opcode i.op ∧ encode i &&& maskBits i.op = matchBits i.op

/-- A packed word under a mask, field by field. -/
theorem packFields_and (op : BitVec 8) (rd rs1 rs2 : RegIdx) (m : Word) :
    packFields op rd rs1 rs2 &&& m =
      (op.zeroExtend 32 &&& m) ||| (rd.zeroExtend 32 <<< 8 &&& m) ||| (rs1.zeroExtend 32 <<< 12 &&& m)
        ||| (rs2.zeroExtend 32 <<< 16 &&& m) := by
  apply BitVec.eq_of_getLsbD_eq
  intro j _
  simp only [packFields, BitVec.getLsbD_and, BitVec.getLsbD_or, Bool.and_or_distrib_right]

theorem rd_masked : ∀ r : RegIdx, r.zeroExtend 32 <<< 8 &&& 0xFFFFF0FF#32 = 0#32 := by decide

theorem rs1_masked : ∀ r : RegIdx, r.zeroExtend 32 <<< 12 &&& 0xFFFF0FFF#32 = 0#32 := by decide

theorem rd_masked3 : ∀ r : RegIdx, r.zeroExtend 32 <<< 8 &&& 0xFFF000FF#32 = 0#32 := by decide

theorem rs1_masked3 : ∀ r : RegIdx, r.zeroExtend 32 <<< 12 &&& 0xFFF000FF#32 = 0#32 := by decide

theorem rs2_masked3 : ∀ r : RegIdx, r.zeroExtend 32 <<< 16 &&& 0xFFF000FF#32 = 0#32 := by decide

theorem EncodeMatches.zero (rd : RegIdx) : EncodeMatches.Statement (.zero rd) :=
  ⟨opField_packFields _ _ _ _, by
    simp only [encode, Instr.op, maskBits, matchBits, opcode]
    rw [packFields_and, rd_masked]; rfl⟩

theorem EncodeMatches.one (rd : RegIdx) : EncodeMatches.Statement (.one rd) :=
  ⟨opField_packFields _ _ _ _, by
    simp only [encode, Instr.op, maskBits, matchBits, opcode]
    rw [packFields_and, rd_masked]; rfl⟩

theorem EncodeMatches.fromu8 (rd : RegIdx) : EncodeMatches.Statement (.fromu8 rd) :=
  ⟨opField_packFields _ _ _ _, by
    simp only [encode, Instr.op, maskBits, matchBits, opcode]
    rw [packFields_and, rd_masked]; rfl⟩

theorem EncodeMatches.fromu32 (rd : RegIdx) : EncodeMatches.Statement (.fromu32 rd) :=
  ⟨opField_packFields _ _ _ _, by
    simp only [encode, Instr.op, maskBits, matchBits, opcode]
    rw [packFields_and, rd_masked]; rfl⟩

theorem EncodeMatches.fromu64 (rd : RegIdx) : EncodeMatches.Statement (.fromu64 rd) :=
  ⟨opField_packFields _ _ _ _, by
    simp only [encode, Instr.op, maskBits, matchBits, opcode]
    rw [packFields_and, rd_masked]; rfl⟩

theorem EncodeMatches.fromslice (rd : RegIdx) : EncodeMatches.Statement (.fromslice rd) :=
  ⟨opField_packFields _ _ _ _, by
    simp only [encode, Instr.op, maskBits, matchBits, opcode]
    rw [packFields_and, rd_masked]; rfl⟩

theorem EncodeMatches.fromhex (rd : RegIdx) : EncodeMatches.Statement (.fromhex rd) :=
  ⟨opField_packFields _ _ _ _, by
    simp only [encode, Instr.op, maskBits, matchBits, opcode]
    rw [packFields_and, rd_masked]; rfl⟩

theorem EncodeMatches.tohex (rs1 : RegIdx) : EncodeMatches.Statement (.tohex rs1) :=
  ⟨opField_packFields _ _ _ _, by
    simp only [encode, Instr.op, maskBits, matchBits, opcode]
    rw [packFields_and, rs1_masked]; rfl⟩

theorem EncodeMatches.shl (rd : RegIdx) : EncodeMatches.Statement (.shl rd) :=
  ⟨opField_packFields _ _ _ _, by
    simp only [encode, Instr.op, maskBits, matchBits, opcode]
    rw [packFields_and, rd_masked]; rfl⟩

theorem EncodeMatches.shr (rd : RegIdx) : EncodeMatches.Statement (.shr rd) :=
  ⟨opField_packFields _ _ _ _, by
    simp only [encode, Instr.op, maskBits, matchBits, opcode]
    rw [packFields_and, rd_masked]; rfl⟩

theorem EncodeMatches.add (rd rs1 rs2 : RegIdx) : EncodeMatches.Statement (.add rd rs1 rs2) :=
  ⟨opField_packFields _ _ _ _, by
    simp only [encode, Instr.op, maskBits, matchBits, opcode]
    rw [packFields_and, rd_masked3, rs1_masked3, rs2_masked3]; rfl⟩

theorem EncodeMatches.mul (rd rs1 rs2 : RegIdx) : EncodeMatches.Statement (.mul rd rs1 rs2) :=
  ⟨opField_packFields _ _ _ _, by
    simp only [encode, Instr.op, maskBits, matchBits, opcode]
    rw [packFields_and, rd_masked3, rs1_masked3, rs2_masked3]; rfl⟩

theorem EncodeMatches.tou8 (rs1 : RegIdx) : EncodeMatches.Statement (.tou8 rs1) :=
  ⟨opField_packFields _ _ _ _, by
    simp only [encode, Instr.op, maskBits, matchBits, opcode]
    rw [packFields_and, rs1_masked]; rfl⟩

theorem EncodeMatches.tou32 (rs1 : RegIdx) : EncodeMatches.Statement (.tou32 rs1) :=
  ⟨opField_packFields _ _ _ _, by
    simp only [encode, Instr.op, maskBits, matchBits, opcode]
    rw [packFields_and, rs1_masked]; rfl⟩

theorem EncodeMatches.tou64 (rs1 : RegIdx) : EncodeMatches.Statement (.tou64 rs1) :=
  ⟨opField_packFields _ _ _ _, by
    simp only [encode, Instr.op, maskBits, matchBits, opcode]
    rw [packFields_and, rs1_masked]; rfl⟩

theorem EncodeMatches.getbyte (rs1 : RegIdx) : EncodeMatches.Statement (.getbyte rs1) :=
  ⟨opField_packFields _ _ _ _, by
    simp only [encode, Instr.op, maskBits, matchBits, opcode]
    rw [packFields_and, rs1_masked]; rfl⟩

theorem EncodeMatches.asbytes (rs1 : RegIdx) : EncodeMatches.Statement (.asbytes rs1) :=
  ⟨opField_packFields _ _ _ _, by
    simp only [encode, Instr.op, maskBits, matchBits, opcode]
    rw [packFields_and, rs1_masked]; rfl⟩

end Sys2Proof.Laws
end

