-- ==== Sys2Proof/Laws/Window.lean ====
section
/-! SUPPORT. The window's two operations (10_state.md R30 to R39; 20_memory.md R66 to R70): which offset is CMD, what a store
leaves alone, and a step at the head of the host's accesses. -/

namespace Sys2Proof.Machine

/-- CMD is the word at offset 0 and no other (R30). -/
theorem regAt_eq_cmd {off : Nat} : regAt off = .cmd ↔ off = 0 := by
  constructor
  · intro h
    unfold regAt at h
    split at h
    · rfl
    all_goals first
      | cases h
      | (split at h <;> cases h)
  · rintro rfl; rfl

/-- What a store of any register but CMD leaves alone (20_memory.md R68). -/
theorem storeReg_frame {s : State} {r : WindowReg} (w : Word) (h : r ≠ .cmd) :
    (storeReg s r w).vregs = s.vregs ∧ (storeReg s r w).res = s.res ∧ (storeReg s r w).status = s.status ∧
      (storeReg s r w).cmd = s.cmd ∧ (storeReg s r w).pending = s.pending ∧ (storeReg s r w).reads = s.reads := by
  cases r <;> first
    | exact absurd rfl h
    | exact ⟨rfl, rfl, rfl, rfl, rfl, rfl⟩

/-- IOBUF's word at a window offset (10_state.md R30, R38). -/
theorem regAt_eq_iobuf {off : Nat} {m : Fin 17} (h4 : off % 4 = 0) (h : regAt off = .iobuf m) : off = 0x40 + 4 * m := by
  unfold regAt at h
  split at h <;> try cases h
  split at h
  · cases h
    show off = 0x40 + 4 * ((off - 0x40) / 4)
    omega
  · cases h

/-- A store leaves every byte of IOBUF alone but those of the word at its offset (20_memory.md R68). -/
theorem storeReg_read_other {s : State} {off : Nat} (h : s.iobuf.wf = true) (h4 : off % 4 = 0) (w : Word) {k : Nat}
    (hk : off ≠ 0x40 + 4 * (k / 4)) : (storeReg s (regAt off) w).iobuf.read k = s.iobuf.read k := by
  cases hr : regAt off with
  | iobuf m =>
    have hm := regAt_eq_iobuf h4 hr
    simp only [storeReg]
    rw [Memory.read_writeBytes h, if_neg (by simp only [List.length_cons, List.length_nil]; omega)]
  | cmd | status | opaLo | opaHi | resLo | resHi | iolen | id | config | reserved => rfl

/-- No store breaks IOBUF's canonical form. -/
theorem storeReg_wf {s : State} (h : s.iobuf.wf = true) (r : WindowReg) (w : Word) : (storeReg s r w).iobuf.wf = true := by
  cases r with
  | iobuf m => exact Memory.wf_writeBytes h _ _
  | cmd | status | opaLo | opaHi | resLo | resHi | iolen | id | config | reserved => exact h

/-- A read, performed. -/
theorem step_read {s : State} {off : Nat} {rest : List HostEvent} (h : s.pending = .read off 4 :: rest) (h4 : off % 4 = 0)
    (hw : off < 0x100) : step s = .next { s with pending := rest, reads := s.reads ++ [readReg s (regAt off)] } := by
  rw [step, h]
  simp only [perform, checkedAccess, h4, hw, and_self, if_true]
  cases hr : regAt off <;> simp [performRead, readReg, hr, State.numVRegs]

/-- A store of any register but CMD, performed. -/
theorem step_store {s : State} {off : Nat} {w : Word} {rest : List HostEvent} (h : s.pending = .write off 4 w :: rest)
    (h4 : off % 4 = 0) (hw : off < 0x100) (hc : off ≠ 0) :
    step s = .next (storeReg { s with pending := rest } (regAt off) w) := by
  rw [step, h]
  simp only [perform, checkedAccess, h4, hw, and_self, if_true, performWrite, regAt_eq_cmd, hc, if_false]

/-- A command word, stored and executed. -/
theorem step_command {s : State} {w : Word} {rest : List HostEvent} (h : s.pending = .write 0x00 4 w :: rest) :
    step s = execute w { s with pending := rest, cmd := w } := by
  rw [step, h]; rfl

/-- The platform's reset. -/
theorem step_reset {s : State} {rest : List HostEvent} (h : s.pending = .reset :: rest) :
    step s = .next (platformReset { s with pending := rest }) := by
  rw [step, h]; rfl

/-- A word of IOBUF at its offset (10_state.md R30, R38). -/
theorem regAt_iobuf (m : Fin 17) : regAt (0x40 + 4 * m) = .iobuf m := by
  revert m; decide

/-- Lane j of a word of four bytes (20_memory.md R64). -/
theorem wordByte_wordOfBytes (b0 b1 b2 b3 : Byte) :
    wordByte (wordOfBytes b0 b1 b2 b3) 0 = b0 ∧ wordByte (wordOfBytes b0 b1 b2 b3) 1 = b1 ∧
      wordByte (wordOfBytes b0 b1 b2 b3) 2 = b2 ∧ wordByte (wordOfBytes b0 b1 b2 b3) 3 = b3 := by
  have h : ∀ i, (wordOfBytes b0 b1 b2 b3).getLsbD i =
      if i < 8 then b0.getLsbD i else if i - 8 < 8 then b1.getLsbD (i - 8) else if i - 8 - 8 < 8 then b2.getLsbD (i - 8 - 8)
        else b3.getLsbD (i - 8 - 8 - 8) := by
    intro i
    change (b3 ++ b2 ++ b1 ++ b0 : BitVec (8 + 8 + 8 + 8)).getLsbD i = _
    simp only [BitVec.getLsbD_append]
  refine ⟨?_, ?_, ?_, ?_⟩ <;>
  · apply BitVec.eq_of_getLsbD_eq
    intro j hj
    rw [wordByte, BitVec.getLsbD_extractLsb', h]
    simp (disch := omega) only [hj, if_pos, if_neg, decide_true, Bool.true_and]
    congr 1
    omega

end Sys2Proof.Machine
end

