-- ==== Sys2Proof/Tests/Slice0.lean ====
section
/-! SUPPORT. Tests: well-formedness, the decoding of every row, single steps with results from spec/95_test_vectors.md (named
by their ids), assembler lines, and for every statement with hypotheses a witness that meets them. -/

open Sys2Proof Sys2Proof.Machine

namespace Sys2Proof.Tests

/-- The next state of an outcome, if it is one. -/
def nextOf : Host.Outcome State Fault Refusal → Option State
  | .next t => some t
  | .fault _ => none
  | .refused _ => none

/-- Reset with one value register, OPA and RES set. -/
def small (r : RegIdx) (v : Value) (opa res : Native) : State := { State.reset.setV r v with opa := opa, res := res }

/-- Reset with bytes in IOBUF and a length. -/
def withText (bs : List Byte) (n : BitVec 16) : State := { State.reset with iobuf := Memory.writeBytes [] 0 bs, iolen := n }

/-- `s` with one command word about to be written to CMD. -/
def withCmd (s : State) (w : Word) : State := { s with pending := [.write 0x00 4 w] }

/-- One step, and what a test looks at: a value register, RES and the STATUS word. -/
def after (s : State) (w : Word) (r : RegIdx) : Option (Value × Native × Word) :=
  (nextOf (step (withCmd s w))).map (fun t => (t.getV r, t.res, statusWord t.status))

/-- One step, and IOLEN and some bytes of IOBUF. -/
def bytesAfter (s : State) (w : Word) (ks : List Nat) : Option (BitVec 16 × List Byte) :=
  (nextOf (step (withCmd s w))).map (fun t => (t.iolen, ks.map t.iobuf.read))

/-- What one access of the host reads, from a state. -/
def readAt (s : State) (off : Nat) : Option (List Word) :=
  (nextOf (step { s with pending := [.read off 4] })).map State.reads

/-- The state after one write of a window word. -/
def writeAt (s : State) (off : Nat) (w : Word) : Option State := nextOf (step { s with pending := [.write off 4 w] })

/-! Well-formedness (30_encoding.md R83, third check): each used field, refused and accepted -/

theorem test_wf_refuses_rd : (Instr.zero 4).wellFormed 4 = false := by decide

theorem test_wf_refuses_rs1 : (Instr.tohex 4).wellFormed 4 = false ∧ (Instr.add 0 4 0).wellFormed 4 = false := by decide

theorem test_wf_refuses_rs2 : (Instr.mul 0 0 7).wellFormed 4 = false := by decide

theorem test_wf_accepts : (Instr.add 3 3 3).wellFormed 4 = true ∧ (Instr.shl 15).wellFormed 16 = true := by decide

/-! Decoding: words written field by field from 30_encoding.md R81 and R82 (bits 31:20, rs2, rs1, rd, op) -/

theorem test_decode_zero : decode (0#12 ++ 0x0#4 ++ 0x0#4 ++ 0x2#4 ++ 0x01#8) = .ok (.zero 2) := by decide

theorem test_decode_one : decode (0#12 ++ 0x0#4 ++ 0x0#4 ++ 0x1#4 ++ 0x02#8) = .ok (.one 1) := by decide

theorem test_decode_fromu8 : decode (0#12 ++ 0x0#4 ++ 0x0#4 ++ 0xF#4 ++ 0x03#8) = .ok (.fromu8 15) := by decide

theorem test_decode_fromu32 : decode (0#12 ++ 0x0#4 ++ 0x0#4 ++ 0x2#4 ++ 0x04#8) = .ok (.fromu32 2) := by decide

theorem test_decode_fromu64 : decode (0#12 ++ 0x0#4 ++ 0x0#4 ++ 0x3#4 ++ 0x05#8) = .ok (.fromu64 3) := by decide

theorem test_decode_fromslice : decode (0#12 ++ 0x0#4 ++ 0x0#4 ++ 0x5#4 ++ 0x06#8) = .ok (.fromslice 5) := by decide

theorem test_decode_fromhex : decode (0#12 ++ 0x0#4 ++ 0x0#4 ++ 0x3#4 ++ 0x10#8) = .ok (.fromhex 3) := by decide

theorem test_decode_tohex : decode (0#12 ++ 0x0#4 ++ 0x2#4 ++ 0x0#4 ++ 0x11#8) = .ok (.tohex 2) := by decide

theorem test_decode_shl : decode (0#12 ++ 0x0#4 ++ 0x0#4 ++ 0x1#4 ++ 0x20#8) = .ok (.shl 1) := by decide

theorem test_decode_shr : decode (0#12 ++ 0x0#4 ++ 0x0#4 ++ 0x8#4 ++ 0x21#8) = .ok (.shr 8) := by decide

theorem test_decode_add : decode (0#12 ++ 0x2#4 ++ 0x1#4 ++ 0x3#4 ++ 0x30#8) = .ok (.add 3 1 2) := by decide

theorem test_decode_mul : decode (0#12 ++ 0xF#4 ++ 0x7#4 ++ 0x9#4 ++ 0x31#8) = .ok (.mul 9 7 15) := by decide

theorem test_decode_tou8 : decode (0#12 ++ 0x0#4 ++ 0x4#4 ++ 0x0#4 ++ 0x40#8) = .ok (.tou8 4) := by decide

theorem test_decode_tou32 : decode (0#12 ++ 0x0#4 ++ 0x1#4 ++ 0x0#4 ++ 0x41#8) = .ok (.tou32 1) := by decide

theorem test_decode_tou64 : decode (0#12 ++ 0x0#4 ++ 0xA#4 ++ 0x0#4 ++ 0x42#8) = .ok (.tou64 10) := by decide

theorem test_decode_getbyte : decode (0#12 ++ 0x0#4 ++ 0x3#4 ++ 0x0#4 ++ 0x43#8) = .ok (.getbyte 3) := by decide

theorem test_decode_asbytes : decode (0#12 ++ 0x0#4 ++ 0x3#4 ++ 0x0#4 ++ 0x44#8) = .ok (.asbytes 3) := by decide

/-- R84: the reserved opcodes next to the defined ones. -/
theorem test_decode_reserved :
    decode 0x00000000#32 = .error .reservedOpcode ∧ decode 0x00000007#32 = .error .reservedOpcode ∧
      decode 0x0000000F#32 = .error .reservedOpcode ∧ decode 0x00000012#32 = .error .reservedOpcode ∧
      decode 0x00000022#32 = .error .reservedOpcode ∧ decode 0x00000032#32 = .error .reservedOpcode ∧
      decode 0x00000045#32 = .error .reservedOpcode ∧ decode 0x000000FF#32 = .error .reservedOpcode := by decide

/-- R84: a nonzero unused field, each kind. -/
theorem test_decode_nonzero :
    decode 0x00001001#32 = .error .nonzeroField ∧ decode 0x00010020#32 = .error .nonzeroField ∧
      decode 0x00000111#32 = .error .nonzeroField ∧ decode 0x00100030#32 = .error .nonzeroField ∧
      decode 0x80000044#32 = .error .nonzeroField := by decide

theorem test_decodeTableWord : decodeTableWord 32 0x00021030 = some (.add 0 1 2) ∧ decodeTableWord 32 0 = none := by decide

/-! Single steps -/

/-- T1 -/
theorem test_zero : after (small 0 0x1234#256 0 0) 0x00000001#32 0 = some (0#256, 0#64, 0x00000100#32) := by decide

/-- T2 -/
theorem test_one : after (small 1 (BitVec.allOnes 256) 0 0) 0x00000102#32 1 = some (1#256, 0#64, 0x00000200#32) := by decide

/-- T4 -/
theorem test_fromu8 : after (small 0 0#256 0x1234#64 0) 0x00000003#32 0 = some (0x34#256, 0#64, 0x00000300#32) := by decide

/-- T6 -/
theorem test_fromu32 : after (small 0 0#256 0x100000001#64 0) 0x00000004#32 0 = some (1#256, 0#64, 0x00000400#32) := by decide

/-- T8 -/
theorem test_fromu64 :
    after (small 1 0#256 0x1122334455667788#64 0) 0x00000105#32 1 = some (0x1122334455667788#256, 0#64, 0x00000500#32) := by
  decide

/-- T10 -/
theorem test_fromslice : after (withText [0x01#8, 0x02#8] 2#16) 0x00000006#32 0 = some (0x201#256, 0#64, 0x00000600#32) := by decide

/-- T12 -/
theorem test_fromslice_too_wide :
    after { small 0 5#256 0 0 with iolen := 33#16 } 0x00000006#32 0 = some (5#256, 0#64, 0x00010641#32) := by decide

/-- T20: "0xabc" -/
theorem test_fromhex :
    after (withText [0x30#8, 0x78#8, 0x61#8, 0x62#8, 0x63#8] 5#16) 0x00000010#32 0 = some (0xABC#256, 0#64, 0x00001000#32) := by
  decide

/-- T25: "0x0x12" -/
theorem test_fromhex_one_prefix :
    after (withText [0x30#8, 0x78#8, 0x30#8, 0x78#8, 0x31#8, 0x32#8] 6#16) 0x00000010#32 0 =
      some (0#256, 0#64, 0x00011021#32) := by decide

/-- T36 -/
theorem test_tohex :
    bytesAfter (small 1 0x0102#256 0 0) 0x00001011#32 [0, 1, 2, 61, 62, 63, 64, 65] =
      some (66#16, [0x30#8, 0x78#8, 0x30#8, 0x30#8, 0x30#8, 0x31#8, 0x30#8, 0x32#8]) := by decide

/-- T37 -/
theorem test_tohex_lower_case :
    bytesAfter (small 3 (BitVec.allOnes 256) 0 0) 0x00003011#32 [2, 65] = some (66#16, [0x66#8, 0x66#8]) := by decide

/-- T44 -/
theorem test_shl : after (small 0 0x81#256 12#64 0) 0x00000020#32 0 = some (0x81000#256, 0#64, 0x00002000#32) := by decide

/-- T46 -/
theorem test_shl_guard : after (small 0 0x81#256 256#64 0) 0x00000020#32 0 = some (0#256, 0#64, 0x00002000#32) := by decide

/-- T49 -/
theorem test_shr :
    after (small 1 0x8000000000000000000000000000000000000000000000000000000000000081#256 1#64 0) 0x00000121#32 1 =
      some (0x4000000000000000000000000000000000000000000000000000000000000040#256, 0#64, 0x00002100#32) := by decide

/-- T54 -/
theorem test_shr_last_byte : after (small 1 (BitVec.allOnes 256) 248#64 0) 0x00000121#32 1 = some (0xFF#256, 0#64, 0x00002100#32) := by
  decide

/-- T64 -/
theorem test_add_carries :
    after ((small 1 0xFFFFFFFFFFFFFFFFFFFFFFFFFFFFFFFFFFFFFFFFFFFFFFFFFFFFFFFFFFFFFF#256 0 0).setV 2 1#256) 0x00021330#32 3 =
      some (0x100000000000000000000000000000000000000000000000000000000000000#256, 0#64, 0x00003000#32) := by decide

/-- T66 -/
theorem test_add_doubles :
    after (small 0 0x8000000000000000000000000000000000000000000000000000000000000003#256 0 0) 0x00000030#32 0 =
      some (6#256, 0#64, 0x00003000#32) := by decide

/-- T68 -/
theorem test_mul : after (small 0 9#256 0 0) 0x00021031#32 0 = some (9#256, 0#64, 0x00013104#32) := by decide

/-- T99 -/
theorem test_mul_reg_range : after (small 0 9#256 0 0) 0x00070031#32 0 = some (9#256, 0#64, 0x00013135#32) := by decide

/-- T70 -/
theorem test_tou8 : after (small 0 255#256 0 0x77#64) 0x00000040#32 0 = some (255#256, 0xFF#64, 0x00004000#32) := by decide

/-- T71 -/
theorem test_tou8_overflow : after (small 0 256#256 0 0x77#64) 0x00000040#32 0 = some (256#256, 0x77#64, 0x00014003#32) := by decide

/-- T74 -/
theorem test_tou32 : after (small 0 0xFFFFFFFF#256 0 0) 0x00000041#32 0 = some (0xFFFFFFFF#256, 0xFFFFFFFF#64, 0x00004100#32) := by
  decide

/-- T75 -/
theorem test_tou32_overflow :
    after (small 0 0x100000000#256 0 0x77#64) 0x00000041#32 0 = some (0x100000000#256, 0x77#64, 0x00014103#32) := by decide

/-- T76 -/
theorem test_tou64 :
    after (small 1 0xFFFFFFFFFFFFFFFF#256 0 0) 0x00001042#32 1 =
      some (0xFFFFFFFFFFFFFFFF#256, 0xFFFFFFFFFFFFFFFF#64, 0x00004200#32) := by decide

/-- T77 -/
theorem test_tou64_overflow :
    after (small 1 0x10000000000000000#256 0 0x77#64) 0x00001042#32 1 =
      some (0x10000000000000000#256, 0x77#64, 0x00014203#32) := by decide

/-- T80 -/
theorem test_getbyte : after (small 2 0x0102#256 1#64 0) 0x00002043#32 2 = some (0x0102#256, 1#64, 0x00004300#32) := by decide

/-- T83 -/
theorem test_getbyte_index :
    after (small 2 0x0102#256 0x100000000#64 0x77#64) 0x00002043#32 2 = some (0x0102#256, 0x77#64, 0x00014302#32) := by decide

/-- T84 -/
theorem test_asbytes :
    bytesAfter (small 3 0x0102#256 0 0) 0x00003044#32 [0, 1, 2, 31] = some (32#16, [0x02#8, 0x01#8, 0#8, 0#8]) := by decide

/-- T96, T97, T98: the order of the checks (60_exceptions.md R202) -/
theorem test_check_order :
    after State.reset 0x80000500#32 0 = some (0#256, 0#64, 0x00010015#32) ∧
      after State.reset 0x00100501#32 0 = some (0#256, 0#64, 0x00010125#32) ∧
      after { State.reset with iolen := 40#16 } 0x00000506#32 0 = some (0#256, 0#64, 0x00010635#32) := by decide

/-- W1, W2, W3, W4 -/
theorem test_window_constants :
    readAt State.reset 0x1C = some [0x55323536#32] ∧ readAt State.reset 0x20 = some [0x01204204#32] ∧
      readAt State.reset 0x24 = some [0#32] ∧ readAt State.reset 0xFC = some [0#32] ∧ readAt State.reset 0x00 = some [0#32] := by
  decide

/-- W5, W6 -/
theorem test_window_read_only :
    writeAt State.reset 0x04 0xFFFFFFFF#32 = some State.reset ∧ writeAt State.reset 0x1C 0#32 = some State.reset := by decide

/-- W7 -/
theorem test_window_iobuf :
    (writeAt State.reset 0x80 0xAABBCCDD#32).bind (fun t => readAt t 0x80) = some [0x0000CCDD#32] := by decide

/-- W8 -/
theorem test_window_iolen :
    (writeAt State.reset 0x18 0x12345678#32).bind (fun t => readAt t 0x18) = some [0x00005678#32] := by decide

/-- W9 -/
theorem test_window_opa :
    (writeAt State.reset 0x0C 1#32).map State.opa = some 0x100000000#64 := by decide

/-- W13 (P11), and an offset outside the window -/
theorem test_window_refused :
    nextOf (step { State.reset with pending := [.read 0x00 1] }) = none ∧
      nextOf (step { State.reset with pending := [.write 0x00 2 2#32] }) = none ∧
      nextOf (step { State.reset with pending := [.read 0x02 4] }) = none ∧
      nextOf (step { State.reset with pending := [.read 0x100 4] }) = none := by decide

/-- 70_reset_and_hazards.md R230: reset after a failed command clears STICKY. -/
theorem test_reset :
    (nextOf (step { small 0 9#256 7#64 0 with pending := [.reset], cmd := 0x31#32, status := ⟨.unimplemented, 0#4, 0x31#8, true⟩ }))
      = some State.reset := by decide

/-- The host's fetch: the word is the next command to run. -/
theorem test_withFetchWord :
    (nextOf (step (State.reset.withFetchWord 32 0x00000102))).map (fun t => (t.getV 1, t.cmd)) = some (1#256, 0x00000102#32) := by
  decide

/-! Assembler lines (30_encoding.md R87 to R89) -/

theorem test_asm_command : assembleLine "add v0, v1, v2 ; sum".toList = .ok [.cmd (.add 0 1 2)] := by decide

theorem test_asm_refuses :
    assembleLine "ZERO v16".toList = .error .badOperands ∧ assembleLine "ZERO".toList = .error .badOperands ∧
      assembleLine "TOHEX v1, v2".toList = .error .badOperands ∧ assembleLine "NOP".toList = .error .unknownName := by decide

theorem test_asm_pseudo :
    assembleLine "LI v1, 10".toList = .ok [.opa 10#64, .cmd (.fromu64 1)] ∧
      assembleLine "DBL v3".toList = .ok [.cmd (.add 3 3 3)] ∧
      assembleLine "MOV v0, v2".toList = .ok [.cmd (.asbytes 2), .cmd (.fromslice 0)] := by decide

theorem test_asm_directives :
    assembleLine ".rd IOBUF16".toList = .ok [.rd (.iobuf 16)] ∧
      assembleLine ".io \"0x1\"".toList = .ok [.io [0x30#8, 0x78#8, 0x31#8]] ∧
      assembleLine ".wr 0x04, 0xFFFFFFFF".toList = .ok [.wr 4 0xFFFFFFFF#32] := by decide

/-- E3's accesses for `.io "0x40000000"`. -/
theorem test_io_accesses :
    Directive.accesses (.io ("0x40000000".toList.map (fun c => BitVec.ofNat 8 c.toNat))) =
      some [.write 0x40 4 0x30347830#32, .write 0x44 4 0x30303030#32, .write 0x48 4 0x00003030#32, .write 0x18 4 10#32] := by decide

/-! Witnesses: concrete inputs that meet all hypotheses of a statement together, and each clause's own at the ends of its
range. `State.reset` has 4 value registers, so register 3 is the last in range and 4 the first out of it. -/

theorem witness_EncodeOfDecodeIsTheWord : decode 0x00021030#32 = .ok (.add 0 1 2) := by decide

theorem witness_MatchAndMaskSelectTheCommand : 0x00003044#32 &&& 0xFFFF0FFF#32 = 0x00000044#32 := by decide

/-- A pending command word, with its opcode and its three register fields as numbers. -/
def wordFields (w : Word) : List HostEvent × Nat × Nat × Nat × Nat :=
  ((withCmd State.reset w).pending, (w.extractLsb' 0 8).toNat, (w.extractLsb' 8 4).toNat, (w.extractLsb' 12 4).toNat,
    (w.extractLsb' 16 4).toNat)

/-- First clause: both ends of each range of reserved opcodes. -/
theorem witness_IllegalWords_reserved :
    [0x00#32, 0x07#32, 0x0F#32, 0x12#32, 0x1F#32, 0x22#32, 0x2F#32, 0x32#32, 0x3F#32, 0x45#32, 0xFF#32].map wordFields =
      [0x00#32, 0x07#32, 0x0F#32, 0x12#32, 0x1F#32, 0x22#32, 0x2F#32, 0x32#32, 0x3F#32, 0x45#32, 0xFF#32].map
        (fun w => ([.write 0x00 4 w], w.toNat, 0, 0, 0)) := by decide

/-- Second clause: rs1 nonzero of ZERO, rs2 nonzero of SHR, rd nonzero of TOHEX, bit 20 and bit 31 of ADD. -/
theorem witness_IllegalWords_nonzero :
    (wordFields 0x00001001#32).2 = (0x01, 0, 1, 0) ∧ (wordFields 0x000F0021#32).2 = (0x21, 0, 0, 15) ∧
      (wordFields 0x00000111#32).2 = (0x11, 1, 0, 0) ∧ (0x00100030#32).extractLsb' 20 12 ≠ 0 ∧
      (0x80000030#32).extractLsb' 20 12 ≠ 0 := by decide

/-- Third clause: the first and the last register out of range, in each used field, no unused bit set. -/
theorem witness_IllegalWords_range :
    (wordFields 0x00000401#32).2 = (0x01, 4, 0, 0) ∧ (wordFields 0x0000F011#32).2 = (0x11, 0, 15, 0) ∧
      (wordFields 0x00040030#32).2 = (0x30, 0, 0, 4) ∧ (0x00040030#32).extractLsb' 20 12 = 0 ∧ State.reset.vregs.length = 4 := by
  decide

theorem witness_WorkedEncodingsDecode : State.reset.vregs.length = 4 := by decide

theorem witness_StepRunsTheDecodedCommand :
    (withCmd State.reset 0x00000102#32).pending = .write 0x00 4 0x00000102#32 :: [] ∧ decode 0x00000102#32 = .ok (.one 1) := by decide

theorem witness_RegisterOutOfRangeIsIllegal :
    (∃ r ∈ (Instr.zero 4).regs, State.reset.vregs.length ≤ r.toNat) ∧
      (∃ r ∈ (Instr.add 3 3 15).regs, State.reset.vregs.length ≤ r.toNat) := by decide

/-- The register premise of every statement about a command: the first and the last register in range. -/
theorem witness_registers_in_range :
    (0#4).toNat < State.reset.vregs.length ∧ (3#4).toNat < State.reset.vregs.length ∧
      (15#4).toNat < (State.resetWith 16).vregs.length ∧ State.reset.iobuf.wf = true := by decide

theorem witness_ZeroAndOneWriteTheirConstant : (3#4).toNat < State.reset.vregs.length := by decide

theorem witness_NativeConstructorsZeroExtend : (3#4).toNat < (small 0 0#256 0x1234#64 0).vregs.length := by decide

theorem witness_FromsliceBuildsFromTheSlice :
    (3#4).toNat < (withText [0x01#8] 32#16).vregs.length ∧ (withText [0x01#8] 32#16).iolen.toNat ≤ 32 ∧
      32 < (withText [0x01#8] 33#16).iolen.toNat := by decide

theorem witness_SliceComesBackFromAsbytes :
    (withText [0x01#8, 0x02#8] 2#16).iobuf.wf = true ∧ (3#4).toNat < (withText [0x01#8, 0x02#8] 2#16).vregs.length ∧
      (withText [0x01#8, 0x02#8] 2#16).iolen.toNat ≤ 32 := by decide

/-- "0XaB", and one digit with no prefix. -/
theorem witness_FromhexReadsTheNumber :
    (∀ c ∈ [0x61#8, 0x42#8], (hexval c).isSome = true) ∧
      (withText [0x30#8, 0x58#8, 0x61#8, 0x42#8] 4#16).iolen.toNat = [0x30#8, 0x58#8].length + [0x61#8, 0x42#8].length ∧
      (∀ k < 4, (withText [0x30#8, 0x58#8, 0x61#8, 0x42#8] 4#16).iobuf.read k =
        ([0x30#8, 0x58#8] ++ [0x61#8, 0x42#8]).getD k 0#8) ∧
      (3#4).toNat < (withText [0x30#8, 0x58#8, 0x61#8, 0x42#8] 4#16).vregs.length ∧
      (withText [0x37#8] 1#16).iobuf.read 0 = ([] ++ [0x37#8]).getD 0 0#8 := by decide

/-- The value 0x7A in 2 digits after "0X", and the value 7 in the one digit it needs, with no prefix. -/
theorem witness_FromhexReadsAValueFromItsDigits :
    (3#4).toNat < (withText [0x30#8, 0x58#8, 0x37#8, 0x61#8] 4#16).vregs.length ∧ (0x7A#256).toNat < 16 ^ 2 ∧
      (withText [0x30#8, 0x58#8, 0x37#8, 0x61#8] 4#16).iolen.toNat = [0x30#8, 0x58#8].length + 2 ∧
      (∀ k < 2, (withText [0x30#8, 0x58#8, 0x37#8, 0x61#8] 4#16).iobuf.read k = [0x30#8, 0x58#8].getD k 0#8) ∧
      (∀ k < 2, (withText [0x30#8, 0x58#8, 0x37#8, 0x61#8] 4#16).iobuf.read (2 + k) =
        hexchar (BitVec.ofNat 4 ((0x7A#256).toNat / 16 ^ (2 - 1 - k)))) ∧
      (7#256).toNat < 16 ^ 1 ∧ (withText [0x37#8] 1#16).iolen.toNat = ([] : List Byte).length + 1 ∧
      (withText [0x37#8] 1#16).iobuf.read 0 = hexchar (BitVec.ofNat 4 ((7#256).toNat / 16 ^ (1 - 1 - 0))) := by decide

set_option maxRecDepth 4000 in
/-- The widest form: the largest value in 64 digits, with no prefix. -/
theorem witness_FromhexReadsAValueFromItsDigits_widest :
    (BitVec.allOnes 256).toNat < 16 ^ 64 ∧ (withText (List.replicate 64 0x66#8) 64#16).iolen.toNat = 64 ∧
      (∀ k < 64, (withText (List.replicate 64 0x66#8) 64#16).iobuf.read k =
        hexchar (BitVec.ofNat 4 ((BitVec.allOnes 256).toNat / 16 ^ (64 - 1 - k)))) := by decide

/-- IOLEN 67; "" and "0x"; 65 characters with no prefix; "0xg"; "0x1". -/
theorem witness_FromhexFollowsItsSteps :
    (3#4).toNat < State.reset.vregs.length ∧ 66 < (withText [] 67#16).iolen.toNat ∧ (withText [] 0#16).iolen.toNat - 0 = 0 ∧
      (2 ≤ (withText [0x30#8, 0x78#8] 2#16).iolen.toNat ∧ (withText [0x30#8, 0x78#8] 2#16).iobuf.read 0 = 0x30#8 ∧
        (withText [0x30#8, 0x78#8] 2#16).iobuf.read 1 = 0x78#8) ∧
      64 < (withText (List.replicate 65 0x30#8) 65#16).iolen.toNat - 0 ∧
      hexval ((withText [0x30#8, 0x78#8, 0x67#8] 3#16).iobuf.read 2) = none ∧
      hexval ((withText [0x30#8, 0x78#8, 0x31#8] 3#16).iobuf.read 2) ≠ none := by decide

set_option maxRecDepth 4000 in
/-- The widest legal text without a prefix: 64 digits, the second of them no 'x'. -/
theorem witness_FromhexFollowsItsSteps_widest :
    (withText (List.replicate 64 0x30#8) 64#16).iolen.toNat = 64 ∧ (withText (List.replicate 64 0x30#8) 64#16).iobuf.read 1 = 0x30#8 ∧
      (∀ k < 64, hexval ((withText (List.replicate 64 0x30#8) 64#16).iobuf.read k) ≠ none) := by decide

theorem witness_TohexRendersCanonicalText : State.reset.iobuf.wf = true ∧ (3#4).toNat < State.reset.vregs.length := by decide

theorem witness_HexTextRoundTrip :
    State.reset.iobuf.wf = true ∧ (3#4).toNat < State.reset.vregs.length ∧ (0#4).toNat < State.reset.vregs.length := by decide

theorem witness_AcceptedTextBecomesCanonical :
    (withText [0x37#8] 1#16).iobuf.wf = true ∧ (0#4).toNat < (withText [0x37#8] 1#16).vregs.length ∧
      (nextOf (exec (.fromhex 0) (withText [0x37#8] 1#16))).map (fun t => t.status.err) = some .none := by decide

/-- The guard's first amount and the last amount below it. -/
theorem witness_shift_amounts :
    (3#4).toNat < (small 3 1#256 255#64 0).vregs.length ∧ (small 3 1#256 255#64 0).opa.toNat < 256 ∧
      256 ≤ (small 3 1#256 256#64 0).opa.toNat ∧ (small 3 1#256 0#64 0).opa = 0 := by decide

theorem witness_ShlMultipliesByPowerOfTwo :
    (3#4).toNat < (small 3 1#256 256#64 0).vregs.length ∧ 256 ≤ (small 3 1#256 256#64 0).opa.toNat := by decide

theorem witness_ShrDividesByPowerOfTwo :
    (3#4).toNat < (small 3 1#256 256#64 0).vregs.length ∧ 256 ≤ (small 3 1#256 256#64 0).opa.toNat := by decide

theorem witness_ShiftLeftThenRightKeepsLowBits :
    (3#4).toNat < (small 3 1#256 255#64 0).vregs.length ∧ (small 3 1#256 255#64 0).opa.toNat < 256 ∧
      (small 3 1#256 0#64 0).opa = 0 ∧ 256 ≤ (small 3 1#256 256#64 0).opa.toNat := by decide

theorem witness_AddIsTheRippleCarrySum :
    (0#4).toNat < State.reset.vregs.length ∧ (1#4).toNat < State.reset.vregs.length ∧ (3#4).toNat < State.reset.vregs.length := by
  decide

/-- The last clause: four different registers for the two sums, and a zero operand. -/
theorem witness_AddIsAdditionModulo :
    (0#4).toNat < State.reset.vregs.length ∧ (1#4).toNat < State.reset.vregs.length ∧ (2#4).toNat < State.reset.vregs.length ∧
      (3#4).toNat < State.reset.vregs.length ∧ (3#4 : RegIdx) ≠ 0#4 ∧ (3#4 : RegIdx) ≠ 1#4 ∧ (3#4 : RegIdx) ≠ 2#4 ∧
      State.reset.getV 2 = 0#256 := by decide

theorem witness_MulAlwaysFailsUnimplemented :
    (3#4).toNat < State.reset.vregs.length ∧ State.reset.vregs.length ≤ (4#4).toNat := by decide

/-- High bytes zero and not, at the boundary values 255 and 256, 2^32 - 1 and 2^32, 2^64 - 1 and 2^64. -/
theorem witness_NarrowingChecksTheHighBytes :
    (3#4).toNat < State.reset.vregs.length ∧ (∀ i < 32, 1 ≤ i → byteAt 255#256 i = 0#8) ∧ byteAt 256#256 1 ≠ 0#8 ∧
      (∀ i < 32, 4 ≤ i → byteAt 0xFFFFFFFF#256 i = 0#8) ∧ byteAt 0x100000000#256 4 ≠ 0#8 ∧
      (∀ i < 32, 8 ≤ i → byteAt 0xFFFFFFFFFFFFFFFF#256 i = 0#8) ∧ byteAt 0x10000000000000000#256 8 ≠ 0#8 := by decide

theorem witness_NarrowingSucceedsIffItFits :
    (3#4).toNat < State.reset.vregs.length ∧
      (nextOf (exec (.tou8 0) (small 0 255#256 0 0))).map (fun t => t.status.err) = some .none := by decide

theorem witness_GetbyteReadsOneByte :
    (3#4).toNat < (small 3 1#256 31#64 0).vregs.length ∧ (small 3 1#256 31#64 0).opa.toNat < 32 ∧
      32 ≤ (small 3 1#256 32#64 0).opa.toNat := by decide

theorem witness_AsbytesCopiesInStorageOrder : State.reset.iobuf.wf = true ∧ (3#4).toNat < State.reset.vregs.length := by decide

theorem witness_ViewsOfOneValueAgree :
    (small 3 0x0102#256 31#64 0).iobuf.wf = true ∧ (3#4).toNat < (small 3 0x0102#256 31#64 0).vregs.length ∧
      (small 3 0x0102#256 31#64 0).opa.toNat < 32 ∧
      (nextOf (exec (.tou64 3) (small 3 0x0102#256 31#64 0))).map (fun t => t.status.err) = some .none := by decide

theorem witness_MovCopiesTheRegister :
    State.reset.iobuf.wf = true ∧ (3#4).toNat < State.reset.vregs.length ∧ (0#4).toNat < State.reset.vregs.length := by decide

/-- Every command of the first frame answers a next state, one of them with a failure report. -/
theorem witness_ValueRegisterCommandsFrame :
    [Instr.zero 3, .one 3, .fromu8 3, .fromu32 3, .fromu64 3, .fromslice 3, .fromhex 3, .shl 3, .shr 3, .add 3 0 0].map
        (fun i => (nextOf (exec i State.reset)).map (fun t => t.status.err)) =
      [some .none, some .none, some .none, some .none, some .none, some .none, some .construction, some .none, some .none,
        some .none] := by decide

theorem witness_ResultCommandsFrame :
    [Instr.tou8 3, .tou32 3, .tou64 3, .getbyte 3, .mul 0 1 2].map
        (fun i => (nextOf (exec i (small 3 1#256 32#64 0))).map (fun t => t.status.err)) =
      [some .none, some .none, some .none, some .index, some .unimplemented] := by decide

theorem witness_BufferCommandsFrame :
    State.reset.iobuf.wf = true ∧
      (nextOf (exec (.tohex 3) State.reset)).map (fun t => t.status.err) = some .none ∧
      (nextOf (exec (.asbytes 3) State.reset)).map (fun t => t.status.err) = some .none := by decide

theorem witness_CommandsLeaveTheHostSide : (nextOf (exec (.one 0) State.reset)).isSome = true := by decide

/-- A failing command before another one. -/
theorem witness_FailureChangesOnlyStatus :
    (nextOf (step { State.reset with pending := .write 0x00 4 0x31#32 :: .write 0x00 4 0x02#32 :: [] })).map
        (fun t => (decide (t.status.err ≠ .none), t.pending)) = some (true, .write 0x00 4 0x02#32 :: []) := by decide

theorem witness_SuccessLeavesSticky :
    (nextOf (step (withCmd { State.reset with status := ⟨.index, 0#4, 0x43#8, true⟩ } 0x02#32))).map
        (fun t => (t.status.err, t.status.sticky)) = some (.none, true) := by decide

/-- A reset, a failing command, and an access that is neither, each from a state with STICKY set. -/
theorem witness_StickyIsClearedOnlyByReset :
    [HostEvent.reset, .write 0x00 4 0x31#32, .write 0x08 4 1#32, .read 0x04 4].map
        (fun e => (nextOf (step { State.reset with pending := [e], status := ⟨.index, 0#4, 0x43#8, true⟩ })).map
          (fun t => t.status.sticky)) = [some false, some true, some true, some true] := by decide

/-- Two states that differ in STATUS, RES and CMD, and both go on. -/
theorem witness_ResultsDoNotDependOnStatus :
    [State.reset, { State.reset with res := 5#64, cmd := 1#32, status := ⟨.index, 0#4, 0x43#8, true⟩ }].map
        (fun s => (nextOf (exec (.tou8 0) s)).map (fun t => (t.status.err, t.res))) = [some (.none, 0#64), some (.none, 0#64)] := by
  decide

/-- One byte at IOLEN differs between the two buffers; with IOLEN over the limit every byte may. -/
theorem witness_BytesPastTheLengthAreNotRead :
    (∀ k < (withText [0x31#8] 1#16).iolen.toNat,
        Memory.read [(0, 0x31#8), (1, 0x32#8)] k = (withText [0x31#8] 1#16).iobuf.read k) ∧
      (nextOf (exec (.fromhex 0) (withText [0x31#8] 1#16))).isSome = true ∧
      (nextOf (exec (.fromslice 0) { withText [0x31#8] 1#16 with iobuf := [(0, 0x31#8), (1, 0x32#8)] })).isSome = true ∧
      ¬ (withText [] 33#16).iolen.toNat ≤ 32 ∧ ¬ (withText [] 67#16).iolen.toNat ≤ 66 := by decide

theorem witness_CmdStoresExecutesAndReadsBack :
    (withCmd State.reset 0x02#32).pending = .write 0x00 4 0x02#32 :: [] ∧
      (nextOf (step (withCmd State.reset 0x02#32))).isSome = true ∧
      { State.reset with pending := [.reset, .read 0x00 4] }.pending = .reset :: .read 0x00 4 :: [] := by decide

/-- The pending premise of the window statements, for a read and for a write of each offset they name. -/
theorem witness_window_pending (off : Nat) (w : Word) :
    { State.reset with pending := [.read off 4] }.pending = .read off 4 :: [] ∧
      { State.reset with pending := [.write off 4 w] }.pending = .write off 4 w :: [] := ⟨rfl, rfl⟩

theorem witness_StatusReadsAsItsFields : { State.reset with pending := [.read 0x04 4] }.pending = .read 0x04 4 :: [] := by decide

/-- The smallest and the largest number of registers. -/
theorem witness_IdAndConfigAreConstants :
    { State.resetWith 1 with pending := [.read 0x20 4] }.pending = .read 0x20 4 :: [] ∧ (State.resetWith 1).vregs.length = 1 ∧
      (State.resetWith 16).vregs.length = 16 ∧ State.reset.vregs.length = 4 := by decide

theorem witness_OpaIsTwoHalves : { State.reset with pending := [.write 0x0C 4 1#32] }.pending = .write 0x0C 4 1#32 :: [] := by decide

theorem witness_ResIsReadAsTwoHalves : { State.reset with pending := [.read 0x14 4] }.pending = .read 0x14 4 :: [] := by decide

theorem witness_IolenIsTheLowHalf : { State.reset with pending := [.write 0x18 4 1#32] }.pending = .write 0x18 4 1#32 :: [] := by
  decide

/-- The first and the last word of IOBUF. -/
theorem witness_IobufWordsHoldFourBytes :
    State.reset.iobuf.wf = true ∧ { State.reset with pending := [.read 0x40 4] }.pending = .read (0x40 + 4 * 0) 4 :: [] ∧
      { State.reset with pending := [.write 0x80 4 1#32] }.pending = .write (0x40 + 4 * 16) 4 1#32 :: [] := by decide

/-- Both ends of the two reserved ranges. -/
theorem witness_ReservedOffsetsReadZero :
    [0x24, 0x3C, 0x84, 0xFC].map (fun off => (off % 4, ({ State.reset with pending := [.read off 4] }).pending)) =
      [0x24, 0x3C, 0x84, 0xFC].map (fun off => (0, [.read off 4])) := by decide

/-- A wrong width, and a wrong offset. -/
theorem witness_UndefinedAccessesAreRefused :
    (2 ≠ 4 ∧ { State.reset with pending := [.write 0x00 2 1#32] }.pending = .write 0x00 2 1#32 :: []) ∧
      (0x02 % 4 ≠ 0 ∧ { State.reset with pending := [.read 0x02 4] }.pending = .read 0x02 4 :: []) := by decide

theorem witness_AccessesOutsideTheWindowFault :
    0x100 % 4 = 0 ∧ { State.reset with pending := [.read 0x100 4] }.pending = .read 0x100 4 :: [] := by decide

/-- Two reads of one offset, a command, and stores of each kind (a reserved word, both halves of OPA, IOLEN, the last word of
IOBUF), each performed. -/
theorem witness_OnlyCmdHasSideEffects :
    State.reset.iobuf.wf = true ∧
      [[HostEvent.read 0x04 4, .read 0x04 4], [.write 0x00 4 0x02#32], [.write 0x84 4 1#32], [.write 0x08 4 1#32],
        [.write 0x0C 4 1#32], [.write 0x18 4 1#32], [.write 0x80 4 1#32]].map
        (fun es => (nextOf (step { State.reset with pending := es })).map (fun t => t.pending.length)) =
      [some 1, some 0, some 0, some 0, some 0, some 0, some 0] := by decide

theorem witness_AccessesAreTakenInOrder :
    (nextOf (step State.reset)).isSome = true ∧
      (nextOf (step { State.reset with pending := [.read 0x04 4] })).map (fun t => t.reads) = some [0#32] := by decide

theorem witness_DefinedHostsNeverStop :
    { State.reset with pending := [.write 0x00 4 0xFF#32, .read 0xFC 4, .reset] }.hostDefined = true := by decide

/-- No byte, and 66 of them. -/
theorem witness_IoDirectiveLoadsTheBytes :
    State.reset.iobuf.wf = true ∧ ([] : List Byte).length ≤ 66 ∧ (List.replicate 66 0x31#8).length ≤ 66 := by decide

theorem witness_ResetZeroesEverything : { small 0 9#256 7#64 0 with pending := [.reset] }.pending = .reset :: [] := by decide

theorem witness_ResetMeetsTheInvariant : 1 ≤ 16 ∧ 16 ≤ 16 := by decide

/-- A state that meets the invariant, and goes on. -/
theorem witness_StepKeepsTheInvariant :
    State.Inv { State.reset with pending := [.write 0x00 4 0x31#32] } ∧
      (nextOf (step { State.reset with pending := [.write 0x00 4 0x31#32] })).isSome = true :=
  ⟨⟨by decide, by decide, by decide, by decide, by decide⟩, by decide⟩

theorem witness_RegisterCountNeverChanges : (nextOf (step (withCmd State.reset 0x02#32))).isSome = true := by decide

end Sys2Proof.Tests
end

section
/-! PROOFS. The host window (10_state.md R31 to R39), register by register. What a step does at an offset is said by
`step_read`, `step_store`, `step_command` and `step_reset`; what is added here is what a command leaves alone, how the
words of STATUS, CONFIG and IOBUF are laid out, and which offsets are reserved. -/

namespace Sys2Proof.Machine

/-! What a command leaves alone -/

/-- No command writes CMD or touches the host's accesses, however it ends (10_state.md R31; 20_memory.md R70). -/
theorem Ends.hostSide {i : Instr} {s t : State} (h : Ends i s t) :
    t.cmd = s.cmd ∧ t.pending = s.pending ∧ t.reads = s.reads := by
  cases h with
  | failed | wroteV | wroteRes | exported => exact ⟨rfl, rfl, rfl⟩

/-- The same of any word written to CMD, legal or not. -/
theorem Executes.hostSide {w : Word} {s t : State} (h : Executes w s t) :
    t.cmd = s.cmd ∧ t.pending = s.pending ∧ t.reads = s.reads := by
  cases h with
  | reserved | nonzero => exact ⟨rfl, rfl, rfl⟩
  | ran i _ _ he => exact he.hostSide

/-- A write of CMD is performed to completion: it answers a state that holds the word, with the access consumed (R31). -/
theorem step_command_completes {s : State} {w : Word} {rest : List HostEvent} (h : s.pending = .write 0x00 4 w :: rest) :
    ∃ t, step s = .next t ∧ t.cmd = w ∧ t.pending = rest := by
  obtain ⟨t, ht, he⟩ := execute_executes w { s with pending := rest, cmd := w }
  obtain ⟨hcmd, hpending, -⟩ := he.hostSide
  exact ⟨t, (step_command h).trans ht, hcmd, hpending⟩

/-! Layout of the words read -/

/-- Appending bit vectors is adding, the upper one shifted. -/
theorem toNat_append_eq_add {m n : Nat} (x : BitVec m) (y : BitVec n) : (x ++ y).toNat = x.toNat * 2 ^ n + y.toNat := by
  rw [BitVec.toNat_append, ← Nat.shiftLeft_add_eq_or_of_lt y.isLt, Nat.shiftLeft_eq]

/-- The STATUS word as a number: its fields at bits 0, 4, 8 and 16, the reserved bits 0 (R32). -/
theorem toNat_statusWord (st : Status) :
    (statusWord st).toNat =
      (errCode st.err).toNat + st.cause.toNat * 2 ^ 4 + st.opc.toNat * 2 ^ 8 + st.sticky.toNat * 2 ^ 16 := by
  change (0#15 ++ BitVec.ofBool st.sticky ++ st.opc ++ st.cause ++ errCode st.err).toNat = _
  simp only [toNat_append_eq_add, BitVec.toNat_ofBool, BitVec.toNat_ofNat]
  omega

/-- The fields of CONFIG for every number of registers a block may have (R34). -/
theorem configWord_fields : ∀ n ≤ 16,
    ((configWord n).extractLsb' 0 5).toNat = n ∧ (configWord n).extractLsb' 5 3 = 0#3 ∧
      (configWord n).extractLsb' 8 8 = 66#8 ∧ (configWord n).extractLsb' 16 8 = 32#8 ∧
      (configWord n).extractLsb' 24 8 = 1#8 := by
  decide

/-- The upper half of a word of four bytes. -/
theorem wordOfBytes_upperHalf (b0 b1 b2 b3 : Byte) : (wordOfBytes b0 b1 b2 b3).extractLsb' 16 16 = b3 ++ b2 := by
  change BitVec.extractLsb' 16 16 (b3 ++ b2 ++ b1 ++ b0) = _
  rw [BitVec.extractLsb'_append_eq_of_le (by decide), BitVec.extractLsb'_append_eq_of_le (by decide)]
  exact BitVec.extractLsb'_eq_self

/-- Lane j of IOBUF's word m is byte 4m + j (R38). -/
theorem wordByte_readReg_iobuf (s : State) (m : Fin 17) {j : Nat} (hj : j < 4) :
    wordByte (readReg s (.iobuf m)) j = s.iobuf.read (4 * m + j) := by
  obtain ⟨h0, h1, h2, h3⟩ := wordByte_wordOfBytes (s.iobuf.read (4 * m)) (s.iobuf.read (4 * m + 1))
    (s.iobuf.read (4 * m + 2)) (s.iobuf.read (4 * m + 3))
  match j, hj with
  | 0, _ => exact h0
  | 1, _ => exact h1
  | 2, _ => exact h2
  | 3, _ => exact h3

/-- The last word's upper half is the lanes of bytes 66 and 67, which do not exist (R38). -/
theorem readReg_lastIobufWord_upperHalf {s : State} (h : s.iobuf.wf = true) :
    (readReg s (.iobuf 16)).extractLsb' 16 16 = 0#16 := by
  have h66 : s.iobuf.read 66 = 0#8 := Memory.read_past h (by decide)
  have h67 : s.iobuf.read 67 = 0#8 := Memory.read_past h (by decide)
  calc (readReg s (.iobuf 16)).extractLsb' 16 16
      = s.iobuf.read 67 ++ s.iobuf.read 66 := wordOfBytes_upperHalf _ _ _ _
    _ = 0#16 := by rw [h66, h67]; rfl

/-- Lane j of the word just stored is byte 4m + j, where that byte exists (R38). -/
theorem read_storeReg_iobuf_lane {s : State} (h : s.iobuf.wf = true) (m : Fin 17) (w : Word) {j : Nat} (hj : j < 4)
    (h66 : 4 * m.val + j < 66) : (storeReg s (.iobuf m) w).iobuf.read (4 * m + j) = wordByte w j := by
  simp only [storeReg]
  rw [Memory.read_writeBytes h, if_pos ⟨by omega, by simpa using hj, h66⟩, Nat.add_sub_cancel_left]
  match j, hj with
  | 0, _ | 1, _ | 2, _ | 3, _ => rfl

/-- Storing a word of IOBUF leaves every other byte alone, and the bytes past the last read as before (R38). -/
theorem read_storeReg_iobuf_other {s : State} (h : s.iobuf.wf = true) (m : Fin 17) (w : Word) {k : Nat}
    (hk : k < 4 * m.val ∨ 4 * m.val + 4 ≤ k ∨ 66 ≤ k) : (storeReg s (.iobuf m) w).iobuf.read k = s.iobuf.read k := by
  simp only [storeReg]
  rw [Memory.read_writeBytes h, if_neg (by simp only [List.length_cons, List.length_nil]; omega)]

/-! Reserved offsets -/

/-- The two reserved ranges of the window map (R30). -/
theorem regAt_reserved {off : Nat} (h4 : off % 4 = 0) (h : (0x24 ≤ off ∧ off ≤ 0x3C) ∨ (0x84 ≤ off ∧ off ≤ 0xFC)) :
    regAt off = .reserved := by
  unfold regAt
  split
  case h_10 => exact dif_neg (by omega)
  all_goals omega

/-! The obligations -/

/-- Settles O40: the command leaves CMD and the host's accesses alone, so the second write finds the state the first left. -/
theorem cmdStoresExecutesAndReadsBack : Obligations.CmdStoresExecutesAndReadsBack := by
  intro s w rest
  refine ⟨fun h => ⟨step_command h, fun t ht => ?_⟩, fun h => ?_, fun h => ?_, fun h => ?_⟩
  · obtain ⟨u, hu, hcmd, hpending⟩ := step_command_completes h
    cases hu.symm.trans ht
    exact ⟨hcmd, hpending⟩
  · obtain ⟨t, ht, hcmd, hpending⟩ := step_command_completes h
    obtain ⟨u, hu, -, hrest⟩ := step_command_completes hpending
    refine ⟨t, u, ht, ?_, hu, hrest⟩
    rw [step_command hpending, ← hcmd]
  · exact step_read h (by decide) (by decide)
  · exact ⟨_, step_reset h, step_read (off := 0x00) rfl (by decide) (by decide)⟩

/-- Settles O41: the word read is `statusWord`, whose number is the sum of its fields. -/
theorem statusReadsAsItsFields : Obligations.StatusReadsAsItsFields := by
  intro s rest
  refine ⟨fun h => ⟨_, step_read h (by decide) (by decide), ?_⟩,
    fun w h => step_store h (by decide) (by decide) (by decide)⟩
  have hsticky : s.status.sticky.toNat = if s.status.sticky then 1 else 0 := by cases s.status.sticky <;> rfl
  refine (toNat_statusWord s.status).trans ?_
  rw [hsticky]
  cases s.status.err <;> rfl

/-- Settles O46: word m of IOBUF is read and written lane by lane; at m = 16 the upper two lanes name no byte. -/
theorem iobufWordsHoldFourBytes : Obligations.IobufWordsHoldFourBytes := by
  intro s m rest hwf hm
  obtain ⟨i, rfl⟩ : ∃ i : Fin 17, m = i := ⟨⟨m, by omega⟩, rfl⟩
  refine ⟨fun h => ⟨readReg s (.iobuf i), ?_, fun j hj => wordByte_readReg_iobuf s i hj, fun h16 => ?_⟩,
    fun w h => ⟨(storeReg s (.iobuf i) w).iobuf, ?_, storeReg_wf hwf _ _,
      fun j hj h66 => read_storeReg_iobuf_lane hwf i w hj h66, fun k hk => read_storeReg_iobuf_other hwf i w hk⟩⟩
  · rw [step_read h (by omega) (by omega), regAt_iobuf]
  · obtain rfl : i = 16 := Fin.ext h16
    exact readReg_lastIobufWord_upperHalf hwf
  · rw [step_store h (by omega) (by omega) (by omega), regAt_iobuf]
    rfl

/-- Settles O42: ID and CONFIG read as `idConstant` and `configWord`, and no store reaches them. -/
theorem idAndConfigAreConstants : Obligations.IdAndConfigAreConstants := by
  intro s rest _ hle
  obtain ⟨hn, hzero, hbuf, hval, hver⟩ := configWord_fields s.vregs.length hle
  refine ⟨fun h => step_read h (by decide) (by decide),
    fun h => ⟨configWord s.vregs.length, step_read h (by decide) (by decide), hn, hzero, hbuf, hval, hver, fun h4 => ?_⟩,
    fun w h => ?_⟩
  · rw [h4]; rfl
  · obtain h | h := h <;> exact step_store h (by decide) (by decide) (by decide)

/-- Settles O43: a store of one half appends it to the other half as it was. -/
theorem opaIsTwoHalves : Obligations.OpaIsTwoHalves := by
  intro s w rest
  refine ⟨fun h => ⟨s.opa.extractLsb' 32 32 ++ w, step_store h (by decide) (by decide) (by decide), ?_, ?_⟩,
    fun h => ⟨w ++ s.opa.extractLsb' 0 32, step_store h (by decide) (by decide) (by decide), ?_, ?_⟩,
    fun h => step_read h (by decide) (by decide), fun h => step_read h (by decide) (by decide)⟩
  · exact BitVec.extractLsb'_append_eq_right
  · exact BitVec.extractLsb'_append_eq_left
  · exact BitVec.extractLsb'_append_eq_left
  · exact BitVec.extractLsb'_append_eq_right

/-- Settles O44: a read returns the half at its offset, and a store at either offset is ignored. -/
theorem resIsReadAsTwoHalves : Obligations.ResIsReadAsTwoHalves := by
  intro s w rest
  refine ⟨fun h => step_read h (by decide) (by decide), fun h => step_read h (by decide) (by decide), fun h => ?_⟩
  obtain h | h := h <;> exact step_store h (by decide) (by decide) (by decide)

/-- Settles O45: the store keeps the low half of the word, and the read extends it with zeros. -/
theorem iolenIsTheLowHalf : Obligations.IolenIsTheLowHalf := by
  intro s w rest
  exact ⟨fun h => step_store h (by decide) (by decide) (by decide), fun h => step_read h (by decide) (by decide)⟩

/-- Settles O47: every offset of the two ranges names `reserved`, and a store of `reserved` or of a read-only register is
no change. -/
theorem reservedOffsetsReadZero : Obligations.ReservedOffsetsReadZero := by
  intro s off rest h4
  refine ⟨fun hoff h => ?_, fun w hoff h => ?_⟩
  · rw [step_read h h4 (by omega), regAt_reserved h4 hoff]
    rfl
  · rw [step_store h h4 (by omega) (by omega)]
    obtain hlow | hhigh | rfl | rfl | rfl | rfl | rfl := hoff
    · rw [regAt_reserved h4 (.inl hlow)]; rfl
    · rw [regAt_reserved h4 (.inr hhigh)]; rfl
    all_goals rfl

end Sys2Proof.Machine
end

section
/-! PROOFS. Memory access (20_memory.md R65, R66, R68): which accesses the block performs, what a read and a store leave as
they were, and the four views of one value. -/

namespace Sys2Proof.Machine

/-! Which accesses are performed -/

/-- An access of another width, or not at a multiple of 4, is refused whatever it would do (20_memory.md R66). -/
theorem checkedAccess_undefined {off width : Nat} (h : width ≠ 4 ∨ off % 4 ≠ 0) (run : Host.Outcome State Fault Refusal) :
    checkedAccess off width run = .refused .undefinedAccess := by
  rw [checkedAccess, if_neg (by omega)]

/-- An event that a step performs is one the block defines (20_memory.md R66, R69). -/
theorem defined_of_step {s t : State} {e : HostEvent} {rest : List HostEvent} (hp : s.pending = e :: rest)
    (h : step s = .next t) : e.defined = true := by
  obtain ⟨hnil, -⟩ | ⟨e', rest', hcons, hperf⟩ := step_cases h
  · cases hp.symm.trans hnil
  · cases hp.symm.trans hcons
    cases hperf with
    | read off h4 hw | store off w h4 hw | command off w t h4 hw => simp [HostEvent.defined, h4, hw]
    | reset => rfl

/-- The defined reads of one word: at a multiple of 4, inside the window. -/
theorem read_defined_iff {off : Nat} : (HostEvent.read off 4).defined = true ↔ off % 4 = 0 ∧ off < 0x100 := by
  simp [HostEvent.defined]

/-- The defined writes of one word: at a multiple of 4, inside the window. -/
theorem write_defined_iff {off : Nat} {w : Word} :
    (HostEvent.write off 4 w).defined = true ↔ off % 4 = 0 ∧ off < 0x100 := by
  simp [HostEvent.defined]

/-! What a read and a store leave as they were -/

/-- What a register reads as does not depend on the host's side (20_memory.md R68). -/
theorem readReg_hostSide (s : State) (pending : List HostEvent) (reads : List Word) (r : WindowReg) :
    readReg { s with pending := pending, reads := reads } r = readReg s r := by
  cases r <;> rfl

/-- Two reads of one offset with nothing between them give the same word twice (20_memory.md R68). -/
theorem step_read_again {s : State} {off : Nat} {rest : List HostEvent} (h4 : off % 4 = 0) (hw : off < 0x100) :
    step { s with pending := .read off 4 :: rest, reads := s.reads ++ [readReg s (regAt off)] } =
      .next { s with pending := rest, reads := s.reads ++ [readReg s (regAt off), readReg s (regAt off)] } := by
  rw [step_read rfl h4 hw, readReg_hostSide s (.read off 4 :: rest), List.append_assoc]
  rfl

/-- A named register stands at one offset (10_state.md R30). -/
theorem eq_of_regOffset_regAt {off o : Nat} (h4 : off % 4 = 0) (h : regOffset (regAt off) = some o) : off = o := by
  unfold regAt at h
  split at h
  case h_10 =>
    split at h
    · have ho : 0x40 + 4 * ((off - 0x40) / 4) = o := Option.some.inj h
      omega
    · cases h
  all_goals exact Option.some.inj h

/-- Only a store of OPA_LO changes the low half of OPA (10_state.md R35). -/
theorem storeReg_opaLo_other {s : State} {r : WindowReg} (w : Word) (hc : r ≠ .opaLo) :
    (storeReg s r w).opa.extractLsb' 0 32 = s.opa.extractLsb' 0 32 := by
  cases r with
  | opaLo => exact absurd rfl hc
  | opaHi => exact BitVec.extractLsb'_append_eq_right
  | cmd | status | resLo | resHi | iolen | id | config | iobuf | reserved => rfl

/-- Only a store of OPA_HI changes the high half of OPA (10_state.md R35). -/
theorem storeReg_opaHi_other {s : State} {r : WindowReg} (w : Word) (hc : r ≠ .opaHi) :
    (storeReg s r w).opa.extractLsb' 32 32 = s.opa.extractLsb' 32 32 := by
  cases r with
  | opaHi => exact absurd rfl hc
  | opaLo => exact BitVec.extractLsb'_append_eq_left
  | cmd | status | resLo | resHi | iolen | id | config | iobuf | reserved => rfl

/-- Only a store of IOLEN changes IOLEN (10_state.md R37). -/
theorem storeReg_iolen_other {s : State} {r : WindowReg} (w : Word) (hc : r ≠ .iolen) :
    (storeReg s r w).iolen = s.iolen := by
  cases r with
  | iolen => exact absurd rfl hc
  | cmd | status | opaLo | opaHi | resLo | resHi | id | config | iobuf | reserved => rfl

/-! The views of one value -/

/-- Byte i of a value as R65 writes it: the value shifted right by 8i, modulo 256. -/
theorem toNat_byteAt_eq_shiftRight (v : Value) (i : Nat) : (byteAt v i).toNat = (v.toNat >>> (8 * i)) % 256 :=
  BitVec.extractLsb'_toNat _ _ _

/-- The two characters of a byte spell its quotient and its remainder by 16 (41_hex_codec.md R122). -/
theorem hexval_byteText (b : Byte) :
    hexval (hexchar (b.extractLsb' 4 4)) = some (b.toNat / 16) ∧
      hexval (hexchar (b.extractLsb' 0 4)) = some (b.toNat % 16) := by
  have hb := b.isLt
  have hhigh : (b.extractLsb' 4 4).toNat = b.toNat / 16 := by
    rw [BitVec.extractLsb'_toNat, Nat.shiftRight_eq_div_pow]
    omega
  rw [hexval_hexchar, hexval_hexchar, hhigh]
  exact ⟨rfl, congrArg some (BitVec.extractLsb'_toNat _ _ _)⟩

/-- TOHEX puts the digits of byte i of its source at `IOBUF[2 + 2(31-i)]` and `IOBUF[3 + 2(31-i)]` (R65). -/
theorem hexval_read_export_hexText {m : Memory} (hw : m.wf = true) (v : Value) {i : Nat} (hi : i < 32) :
    hexval ((m.writeBytes 0 (hexText v)).read (2 + 2 * (31 - i))) = some ((byteAt v i).toNat / 16) ∧
      hexval ((m.writeBytes 0 (hexText v)).read (3 + 2 * (31 - i))) = some ((byteAt v i).toNat % 16) := by
  obtain ⟨hhigh, hlow⟩ := hexText_group v (k := 31 - i) (by omega)
  rw [read_export_hexText hw, read_export_hexText hw, if_pos (by omega), if_pos (by omega), hhigh, hlow,
    show 31 - (31 - i) = i by omega]
  exact hexval_byteText (byteAt v i)

/-- GETBYTE answers; with an index below 32, RES is that byte of the value (43_add_narrow.md R168). -/
theorem getbyte_res {s : State} {r : RegIdx} (hr : r.toNat < s.vregs.length) :
    ∃ t, exec (.getbyte r) s = .next t ∧ (s.opa.toNat < 32 → t.res.toNat = (byteAt (s.getV r) s.opa.toNat).toNat) := by
  refine ⟨_, exec_getbyte hr, fun hi => ?_⟩
  rw [if_neg (by omega), complete_res, State.setRes_res]
  exact BitVec.toNat_setWidth_of_le (by decide)

/-- Narrowing answers; when it reports success, RES is the value (43_add_narrow.md R164). -/
theorem narrow_res {s : State} {r : RegIdx} (hr : r.toNat < s.vregs.length) (op : Op) {k : Nat} (hk : k ≤ 8) :
    ∃ t, narrow op k r s = .next t ∧ (t.status.err = .none → t.res.toNat = (s.getV r).toNat) := by
  refine ⟨_, narrow_inRange hr op k, fun herr => ?_⟩
  split at herr
  case isTrue hz =>
    have hlt : (s.getV r).toNat < 256 ^ k := (highBytesZero_iff k _).mp hz
    have hpow : 256 ^ k ≤ 256 ^ 8 := Nat.pow_le_pow_right (by decide) hk
    rw [if_pos hz, complete_res, State.setRes_res, byteSum_byteAt, Nat.mod_eq_of_lt hlt, BitVec.toNat_ofNat]
    exact Nat.mod_eq_of_lt (by omega)
  case isFalse => cases herr

/-! The obligations -/

/-- Settles O48: the width and the alignment are checked before the access does anything. -/
theorem undefinedAccessesAreRefused : Obligations.UndefinedAccessesAreRefused := by
  intro s off width w rest hbad hp
  obtain hp | hp := hp <;> rw [step, hp] <;> exact checkedAccess_undefined hbad _

/-- Settles O50: the step was performed, so its access is defined; then each kind of access has its own rule. -/
theorem onlyCmdHasSideEffects : Obligations.OnlyCmdHasSideEffects := by
  intro s t e rest hp hstep
  have hdef := defined_of_step hp hstep
  refine ⟨?_, ?_, ?_, ?_⟩
  · rintro w rfl
    exact (step_command hp).symm.trans hstep
  · rintro off rfl
    obtain ⟨h4, hw⟩ := read_defined_iff.mp hdef
    cases (step_read hp h4 hw).symm.trans hstep
    exact ⟨_, rfl⟩
  · rintro off rest' rfl rfl
    obtain ⟨h4, hw⟩ := read_defined_iff.mp hdef
    cases (step_read hp h4 hw).symm.trans hstep
    exact ⟨_, step_read_again h4 hw⟩
  · rintro off w rfl hc
    obtain ⟨h4, hw⟩ := write_defined_iff.mp hdef
    cases (step_store hp h4 hw hc).symm.trans hstep
    have hother {r : WindowReg} {o : Nat} (hr : regOffset r = some o) (hne : off ≠ o) : regAt off ≠ r :=
      fun h => hne (eq_of_regOffset_regAt h4 (h ▸ hr))
    obtain ⟨hvregs, hres, hstatus, hcmd, hpending, hreads⟩ :=
      storeReg_frame (s := { s with pending := rest }) w (hother (r := .cmd) rfl hc)
    exact ⟨hvregs, hres, hstatus, hcmd, hreads, hpending,
      fun h => storeReg_opaLo_other w (hother rfl h), fun h => storeReg_opaHi_other w (hother rfl h),
      fun h => storeReg_iolen_other w (hother rfl h), fun hwf _ hk => storeReg_read_other (s := { s with pending := rest }) hwf h4 w hk⟩

/-- Settles O29: each view is a view of the same byte `byteAt`, which is the shift and remainder of R65. -/
theorem viewsOfOneValueAgree : Obligations.ViewsOfOneValueAgree := by
  intro s r hwf hr
  obtain ⟨g, hg, hbyte⟩ := getbyte_res hr
  obtain ⟨n, hn, hvalue⟩ := narrow_res hr .tou64 (k := 8) le_rfl
  refine ⟨g, _, _, n, hg, exec_asbytes hr, exec_tohex hr, hn, ?_, fun i hi => ?_, hvalue⟩
  · rw [← toNat_byteAt_eq_shiftRight]
    exact hbyte
  · rw [← toNat_byteAt_eq_shiftRight]
    simp only [complete_iobuf, State.exportBytes_iobuf]
    rw [read_export_bytes hwf, if_pos hi]
    exact ⟨rfl, hexval_read_export_hexText hwf (s.getV r) hi⟩

end Sys2Proof.Machine
end

section
/-! PROOFS. The command word (30_encoding.md R82, R84, R90): each row of the opcode map by its match and mask, and what the
three kinds of illegal word report. Which row an opcode names is read off the opcode as a number, as R84 lists them. -/

namespace Sys2Proof

/-! The rows by match and mask -/

/-- A word matches a row under its mask exactly when it decodes to that row's command with its own register fields (R82). -/
theorem masked_iff_decode (o : Op) (w : Word) :
    w &&& maskBits o = matchBits o ↔ decode w = .ok (instrOf o (rdField w) (rs1Field w) (rs2Field w)) := by
  rw [decode_row, and_iff_left rfl]

/-! The rows by opcode number -/

/-- The opcodes that name no command (R84). -/
abbrev ReservedCode (c : Nat) : Prop :=
  c = 0 ∨ (0x07 ≤ c ∧ c ≤ 0x0F) ∨ (0x12 ≤ c ∧ c ≤ 0x1F) ∨ (0x22 ≤ c ∧ c ≤ 0x2F) ∨ (0x32 ≤ c ∧ c ≤ 0x3F) ∨ 0x45 ≤ c

/-- The opcodes of the commands that use only rd (R82). -/
abbrev RdCode (c : Nat) : Prop := (1 ≤ c ∧ c ≤ 6) ∨ c = 0x10 ∨ c = 0x20 ∨ c = 0x21

/-- The opcodes of the commands that use only rs1 (R82). -/
abbrev Rs1Code (c : Nat) : Prop := c = 0x11 ∨ (0x40 ≤ c ∧ c ≤ 0x44)

/-- The opcodes of the commands that use all three register fields (R82). -/
abbrev AllFieldsCode (c : Nat) : Prop := c = 0x30 ∨ c = 0x31

/-- Bits 31:20 or a register field the opcode does not use is nonzero (R84, CAUSE 2). -/
def NonzeroUnused (w : Word) : Prop :=
  (RdCode (opField w).toNat ∧ ((rs1Field w).toNat ≠ 0 ∨ (rs2Field w).toNat ≠ 0)) ∨
    (Rs1Code (opField w).toNat ∧ ((rdField w).toNat ≠ 0 ∨ (rs2Field w).toNat ≠ 0)) ∨
    ((RdCode (opField w).toNat ∨ Rs1Code (opField w).toNat ∨ AllFieldsCode (opField w).toNat) ∧ w.extractLsb' 20 12 ≠ 0)

/-- A register field the opcode uses names none of `n` registers (R84, CAUSE 3). -/
def UsedOutOfRange (n : Nat) (w : Word) : Prop :=
  (RdCode (opField w).toNat ∧ n ≤ (rdField w).toNat) ∨ (Rs1Code (opField w).toNat ∧ n ≤ (rs1Field w).toNat) ∨
    (AllFieldsCode (opField w).toNat ∧ (n ≤ (rdField w).toNat ∨ n ≤ (rs1Field w).toNat ∨ n ≤ (rs2Field w).toNat))

theorem not_reservedCode_opcode (o : Op) : ¬ ReservedCode (opcode o).toNat := by
  cases o <;> decide

theorem exists_opcode_of_not_reservedCode : ∀ c : BitVec 8, ¬ ReservedCode c.toNat → ∃ o ∈ allOps, c = opcode o := by
  decide

theorem regIdx_toNat_eq_zero {r : RegIdx} : r.toNat = 0 ↔ r = 0#4 := BitVec.toNat_inj (y := 0#4)

/-- The fields a row wants zero are the ones R84 names for its opcode. -/
theorem not_unusedZero_iff {o : Op} {w : Word} (ho : opField w = opcode o) : ¬ unusedZero o w ↔ NonzeroUnused w := by
  rw [NonzeroUnused, ho]
  cases o with
  | zero | one | fromu8 | fromu32 | fromu64 | fromslice | fromhex | shl | shr
  | tohex | tou8 | tou32 | tou64 | getbyte | asbytes | add | mul =>
    simp [unusedZero, opcode, RdCode, Rs1Code, AllFieldsCode, regIdx_toNat_eq_zero, -not_and, not_and_or, or_comm]

/-- The registers a row checks are the ones R84 names for its opcode. -/
theorem not_regsOk_iff {o : Op} {w : Word} (ho : opField w = opcode o) (n : Nat) :
    ¬ regsOk n (instrOf o (rdField w) (rs1Field w) (rs2Field w)).regs = true ↔ UsedOutOfRange n w := by
  rw [UsedOutOfRange, ho]
  cases o with
  | zero | one | fromu8 | fromu32 | fromu64 | fromslice | fromhex | shl | shr
  | tohex | tou8 | tou32 | tou64 | getbyte | asbytes =>
    simp [instrOf, Instr.regs, Machine.regsOk_one, opcode, RdCode, Rs1Code, AllFieldsCode]
  | add | mul =>
    simp [instrOf, Instr.regs, Machine.regsOk_three, opcode, RdCode, Rs1Code, AllFieldsCode, -not_and, not_and_or]

/-! The second and the third kind of R84 are about words whose opcode is in the map. -/

theorem NonzeroUnused.exists_opcode {w : Word} (h : NonzeroUnused w) : ∃ o ∈ allOps, opField w = opcode o :=
  exists_opcode_of_not_reservedCode _ (by unfold NonzeroUnused at h; omega)

theorem UsedOutOfRange.exists_opcode {n : Nat} {w : Word} (h : UsedOutOfRange n w) : ∃ o ∈ allOps, opField w = opcode o :=
  exists_opcode_of_not_reservedCode _ (by unfold UsedOutOfRange at h; omega)

end Sys2Proof

namespace Sys2Proof.Machine

/-! What an illegal word reports -/

theorem execute_reserved {w : Word} (h : ReservedCode (opField w).toNat) (s : State) :
    execute w s = .next (raise (opField w) .illegal 1#4 s) := by
  rw [execute, decode_reserved fun o ho => not_reservedCode_opcode o (ho ▸ h)]
  rfl

theorem execute_nonzero {w : Word} (h : NonzeroUnused w) (s : State) :
    execute w s = .next (raise (opField w) .illegal 2#4 s) := by
  obtain ⟨o, -, ho⟩ := h.exists_opcode
  rw [execute, decode_nonzero ho ((not_unusedZero_iff ho).mpr h)]
  rfl

theorem execute_outOfRange {w : Word} {s : State} (hz : ¬ NonzeroUnused w) (h : UsedOutOfRange s.vregs.length w) :
    execute w s = .next (raise (opField w) .illegal 3#4 s) := by
  obtain ⟨o, -, ho⟩ := h.exists_opcode
  have hunused : unusedZero o w := not_not.mp fun hn => hz ((not_unusedZero_iff ho).mp hn)
  rw [execute, decode_eq_ok.mpr ⟨o, ho, hunused, rfl⟩]
  refine (exec_outOfRange ((not_regsOk_iff ho _).mpr h)).trans ?_
  rw [op_instrOf, ho]
  rfl

/-! The obligations -/

/-- Settles O3: each row is `masked_iff_decode` of its operation. -/
theorem matchAndMaskSelectTheCommand : Obligations.MatchAndMaskSelectTheCommand := by
  intro w
  have row (o : Op) := masked_iff_decode o w
  exact ⟨row .zero, row .one, row .fromu8, row .fromu32, row .fromu64, row .fromslice, row .fromhex, row .tohex, row .shl,
    row .shr, row .add, row .mul, row .tou8, row .tou32, row .tou64, row .getbyte, row .asbytes⟩

/-- Settles O4: the step executes the word, and each kind of R84 is the failure of one check of R83. -/
theorem illegalWordsChangeOnlyStatus : Obligations.IllegalWordsChangeOnlyStatus := by
  intro s w rest hp
  exact ⟨fun h => (step_command hp).trans (execute_reserved h _), fun h => (step_command hp).trans (execute_nonzero h _),
    fun hz h => (step_command hp).trans (execute_outOfRange hz h)⟩

/-- Settles O5: the encodings compute; the two illegal words are of the second and the third kind of R84. -/
theorem workedEncodingsDecode : Obligations.WorkedEncodingsDecode := by
  have hnonzero : NonzeroUnused 0x00001001#32 := .inl (by decide)
  have hzero : ¬ NonzeroUnused 0x00000501#32 := by unfold NonzeroUnused; decide
  have hrange : UsedOutOfRange 4 0x00000501#32 := .inl (by decide)
  refine ⟨by decide, by decide, by decide, by decide, by decide, by decide, execute_nonzero hnonzero, fun s hs => ?_⟩
  exact execute_outOfRange hzero (hs ▸ hrange)

end Sys2Proof.Machine
end

section
/-! PROOFS. Construction (40_construction.md R100 to R107): the encodings of the commands that use only rd, the value a native
operand or a byte slice becomes, and the slice that ASBYTES gives back. -/

namespace Sys2Proof

/-- A word is a given command that uses only rd exactly when it matches the row and bits 11:8 are the register (30_encoding.md
R81, R82). -/
theorem decode_rdRow {o : Op} (ho : maskBits o = 0xFFFFF0FF#32) (rd rs1 rs2 : RegIdx) (w : Word) :
    decode w = .ok (instrOf o rd rs1 rs2) ↔ w &&& 0xFFFFF0FF#32 = matchBits o ∧ w.extractLsb' 8 4 = rd := by
  rw [decode_row, ho]
  cases o with
  | zero | one | fromu8 | fromu32 | fromu64 | fromslice | fromhex | shl | shr => simp [instrOf, rdField]
  | tohex | add | mul | tou8 | tou32 | tou64 | getbyte | asbytes => exact absurd ho (by decide)

end Sys2Proof

namespace Sys2Proof.Machine

/-! The values constructed -/

/-- Placing k bytes of a native operand is extending its low 8k bits with zeros (R100). -/
theorem nativePlacement_eq_zeroExtend (k : Nat) (n : Native) :
    nativePlacement k n = (n.extractLsb' 0 (8 * k)).zeroExtend 256 := by
  apply BitVec.eq_of_toNat_eq
  have hlt : n.toNat % 2 ^ (8 * k) < 2 ^ 256 := ((Nat.mod_le _ _).trans_lt n.isLt).trans (by decide)
  calc (nativePlacement k n).toNat
      = n.toNat % 2 ^ (8 * k) := by rw [toNat_nativePlacement, pow_mul, show (2 : Nat) ^ 8 = 256 from rfl]
    _ = ((n.extractLsb' 0 (8 * k)).zeroExtend 256).toNat := by
      rw [BitVec.toNat_setWidth, BitVec.extractLsb'_toNat, Nat.shiftRight_zero, Nat.mod_eq_of_lt hlt]

/-- Byte i of a slice's value is byte i of the slice, and zero past its end (R106). -/
theorem byteAt_sliceValue (m : Memory) (n : Nat) {i : Nat} (hi : i < 32) :
    byteAt (sliceValue m n) i = if i < n then m.read i else 0#8 := byteAt_ofBytes _ hi

/-- FROMSLICE of a slice that fits a value (R106). -/
theorem exec_fromslice_fits {s : State} {rd : RegIdx} (h : rd.toNat < s.vregs.length) (hn : s.iolen.toNat ≤ 32) :
    exec (.fromslice rd) s = .next (complete 0x06#8 (s.setV rd (sliceValue s.iobuf s.iolen.toNat))) := by
  rw [exec_fromslice h, if_neg (by omega)]

/-- FROMSLICE of a slice longer than a value (R106). -/
theorem exec_fromslice_tooWide {s : State} {rd : RegIdx} (h : rd.toNat < s.vregs.length) (hn : 32 < s.iolen.toNat) :
    exec (.fromslice rd) s = .next (raise 0x06#8 .construction causeSliceTooWide s) := by
  rw [exec_fromslice h, if_pos hn]

/-! The obligations -/

/-- Settles O8: the bytes of the two constants are assembled in `exec_zero` and `exec_one`. -/
theorem zeroAndOneWriteTheirConstant : Obligations.ZeroAndOneWriteTheirConstant := by
  intro s rd hrd
  exact ⟨exec_zero hrd, exec_one hrd, decode_rdRow (o := .zero) rfl rd 0 0, decode_rdRow (o := .one) rfl rd 0 0⟩

/-- Settles O9: placing 1, 4 or 8 bytes of OPA is zero extension of its low 8, 32 or 64 bits, the last being all of it. -/
theorem nativeConstructorsZeroExtend : Obligations.NativeConstructorsZeroExtend := by
  intro s rd hrd
  have h64 : nativePlacement 8 s.opa = s.opa.zeroExtend 256 := by
    rw [nativePlacement_eq_zeroExtend, BitVec.extractLsb'_eq_self]
  refine ⟨?_, ?_, ?_, decode_rdRow (o := .fromu8) rfl rd 0 0, decode_rdRow (o := .fromu32) rfl rd 0 0,
    decode_rdRow (o := .fromu64) rfl rd 0 0⟩
  · rw [exec_fromu8 hrd, nativePlacement_eq_zeroExtend]; rfl
  · rw [exec_fromu32 hrd, nativePlacement_eq_zeroExtend]; rfl
  · rw [exec_fromu64 hrd, h64]; rfl

/-- Settles O10: the value is `sliceValue`, read byte by byte; above 32 bytes only the report changes. -/
theorem fromsliceBuildsFromTheSlice : Obligations.FromsliceBuildsFromTheSlice := by
  intro s rd hrd
  exact ⟨fun hn => ⟨_, fun _ hi => byteAt_sliceValue _ _ hi, exec_fromslice_fits hrd hn⟩, exec_fromslice_tooWide hrd,
    decode_rdRow (o := .fromslice) rfl rd 0 0⟩

/-- Settles O11: ASBYTES stores the bytes of the value FROMSLICE built, which are the slice's and then zeros. -/
theorem sliceComesBackFromAsbytes : Obligations.SliceComesBackFromAsbytes := by
  intro s rd hwf hrd hn
  have hrd' : rd.toNat < (complete 0x06#8 (s.setV rd (sliceValue s.iobuf s.iolen.toNat))).vregs.length := by simpa using hrd
  refine ⟨_, _, exec_fromslice_fits hrd hn, exec_asbytes hrd', ?_⟩
  have hread {k : Nat} (hk : k < 32) :
      (s.iobuf.writeBytes 0 ((List.range 32).map (byteAt (sliceValue s.iobuf s.iolen.toNat)))).read k =
        if k < s.iolen.toNat then s.iobuf.read k else 0#8 := by
    rw [read_export_bytes hwf, if_pos hk, byteAt_sliceValue _ _ hk]
  simp only [complete_iobuf, State.exportBytes_iobuf, State.setV_iobuf, complete_getV, State.setV_getV_same hrd]
  exact ⟨fun k hk => (hread (by omega)).trans (if_pos hk), fun k hk hk32 => (hread hk32).trans (if_neg (by omega))⟩

end Sys2Proof.Machine
end

section
/-! PROOFS. The hexadecimal codec (41_hex_codec.md R121 to R124). A value and its text meet digit by digit: digit k of a
number is its quotient by 16^k modulo 16, and it is the character k places from the text's end. -/

namespace Sys2Proof

/-- A word is a given command that uses only rs1 exactly when it matches the row and bits 15:12 are the register
(30_encoding.md R81, R82). -/
theorem decode_rs1Row {o : Op} (ho : maskBits o = 0xFFFF0FFF#32) (rd rs1 rs2 : RegIdx) (w : Word) :
    decode w = .ok (instrOf o rd rs1 rs2) ↔ w &&& 0xFFFF0FFF#32 = matchBits o ∧ w.extractLsb' 12 4 = rs1 := by
  rw [decode_row, ho]
  cases o with
  | tohex | tou8 | tou32 | tou64 | getbyte | asbytes => simp [instrOf, rs1Field]
  | zero | one | fromu8 | fromu32 | fromu64 | fromslice | fromhex | shl | shr | add | mul => exact absurd ho (by decide)

end Sys2Proof

namespace Sys2Proof.Machine

/-! The digits of a value -/

/-- Byte i of a number is its digits 2i + 1 and 2i. -/
theorem byte_eq_two_digits (x i : Nat) :
    x / 256 ^ i % 256 = x / 16 ^ (2 * i + 1) % 16 * 16 + x / 16 ^ (2 * i) % 16 := by
  have hlow : x / 16 ^ (2 * i) = x / 256 ^ i := by rw [pow_mul, show 16 ^ 2 = 256 from rfl]
  have hhigh : x / 16 ^ (2 * i + 1) = x / 256 ^ i / 16 := by rw [pow_succ, ← Nat.div_div_eq_div_mul, hlow]
  rw [hlow, hhigh]
  omega

/-- The low half of byte i is digit 2i of the value. -/
theorem lowNibble_byteAt (v : Value) (i : Nat) :
    (byteAt v i).extractLsb' 0 4 = BitVec.ofNat 4 (v.toNat / 16 ^ (2 * i)) := by
  apply BitVec.eq_of_toNat_eq
  rw [BitVec.extractLsb'_toNat, BitVec.toNat_ofNat, toNat_byteAt, byte_eq_two_digits, Nat.shiftRight_zero]
  omega

/-- The high half of byte i is digit 2i + 1 of the value. -/
theorem highNibble_byteAt (v : Value) (i : Nat) :
    (byteAt v i).extractLsb' 4 4 = BitVec.ofNat 4 (v.toNat / 16 ^ (2 * i + 1)) := by
  apply BitVec.eq_of_toNat_eq
  rw [BitVec.extractLsb'_toNat, BitVec.toNat_ofNat, toNat_byteAt, byte_eq_two_digits, Nat.shiftRight_eq_div_pow]
  omega

/-- The text TOHEX renders, digit by digit: after "0x" the k-th character is digit 63 - k of the value (R122). -/
theorem hexText_digit (v : Value) {k : Nat} (hk : k < 64) :
    (hexText v).getD (2 + k) 0#8 = hexchar (BitVec.ofNat 4 (v.toNat / 16 ^ (63 - k))) := by
  obtain ⟨hhigh, hlow⟩ := hexText_group v (k := k / 2) (by omega)
  rcases Nat.mod_two_eq_zero_or_one k with heven | hodd
  · rw [show 2 + k = 2 + 2 * (k / 2) by omega, hhigh, highNibble_byteAt,
      show 2 * (31 - k / 2) + 1 = 63 - k by omega]
  · rw [show 2 + k = 3 + 2 * (k / 2) by omega, hlow, lowNibble_byteAt, show 2 * (31 - k / 2) = 63 - k by omega]

/-! The number a text spells -/

/-- The number a digit text spells in base 16, most significant digit first. -/
def hexNumber (ds : List Byte) : Nat := ds.foldl (fun a c => a * 16 + (hexval c).getD 0) 0

theorem hexNumber_append_singleton (ds : List Byte) (c : Byte) :
    hexNumber (ds ++ [c]) = hexNumber ds * 16 + (hexval c).getD 0 := by
  rw [hexNumber, List.foldl_append]
  rfl

/-- Digit k of the number is the k-th character from the text's end; before the first character stand zeros. -/
theorem hexNumber_digit (ds : List Byte) (k : Nat) :
    hexNumber ds / 16 ^ k % 16 = (hexval (ds.reverse.getD k 0x30#8)).getD 0 := by
  induction ds using List.reverseRecOn generalizing k with
  | nil => exact congrArg (· % 16) (Nat.zero_div _)
  | append_singleton ds c ih =>
    have hc := hexval_getD_lt c
    rw [hexNumber_append_singleton, List.reverse_append, List.reverse_singleton, List.singleton_append]
    cases k with
    | zero => rw [List.getD_cons_zero, pow_zero, Nat.div_one]; omega
    | succ k =>
      rw [List.getD_cons_succ, ← ih, pow_succ', ← Nat.div_div_eq_div_mul,
        show (hexNumber ds * 16 + (hexval c).getD 0) / 16 = hexNumber ds by omega]

/-- Of at most 64 digits nothing is lost (R121). -/
theorem toNat_ofNat_hexNumber {ds : List Byte} (h : ds.length ≤ 64) :
    (BitVec.ofNat 256 (hexNumber ds)).toNat = hexNumber ds := by
  have hlt : hexNumber ds < 16 ^ ds.length := foldl_digits_lt ds
  have hpow : 16 ^ ds.length ≤ 16 ^ 64 := Nat.pow_le_pow_right (by decide) h
  rw [BitVec.toNat_ofNat]
  exact Nat.mod_eq_of_lt (by omega)

/-- Byte j of the number of at most 64 digits is the two characters at 2j + 1 and 2j places from the text's end (R121). -/
theorem byteAt_hexNumber {ds : List Byte} (h : ds.length ≤ 64) (j : Nat) :
    (byteAt (BitVec.ofNat 256 (hexNumber ds)) j).toNat =
      (hexval (ds.reverse.getD (2 * j + 1) 0x30#8)).getD 0 * 16 + (hexval (ds.reverse.getD (2 * j) 0x30#8)).getD 0 := by
  rw [toNat_byteAt, toNat_ofNat_hexNumber h, byte_eq_two_digits, hexNumber_digit, hexNumber_digit]

/-! The text FROMHEX reads -/

/-- The length of the leading 0x or 0X of `IOBUF[0 .. n-1]`, at most one and at the start only (R121). -/
def prefixLength (m : Memory) (n : Nat) : Nat :=
  if 2 ≤ n ∧ m.read 0 = 0x30#8 ∧ (m.read 1 = 0x78#8 ∨ m.read 1 = 0x58#8) then 2 else 0

/-- What `stripPrefix` leaves of `IOBUF[0 .. n-1]` is the bytes from there to the end. -/
theorem stripPrefix_ioBytes (m : Memory) (n : Nat) :
    stripPrefix (ioBytes m n) = (List.range' (prefixLength m n) (n - prefixLength m n)).map m.read := by
  have hdrop : stripPrefix (ioBytes m n) = (ioBytes m n).drop (prefixLength m n) := by
    rw [stripPrefix_eq_drop, length_ioBytes, prefixLength]
    by_cases hn : 2 ≤ n
    · rw [getD_ioBytes m (by omega), getD_ioBytes m (by omega)]
    · rw [if_neg (fun h => hn h.1), if_neg (fun h => hn h.1)]
  rw [hdrop, ioBytes, ← List.map_drop, List.range_eq_range', List.drop_range', Nat.zero_add, Nat.mul_one]

theorem length_stripPrefix_ioBytes (m : Memory) (n : Nat) : (stripPrefix (ioBytes m n)).length = n - prefixLength m n := by
  rw [stripPrefix_ioBytes, List.length_map, List.length_range']

theorem mem_stripPrefix_ioBytes {m : Memory} {n : Nat} {c : Byte} :
    c ∈ stripPrefix (ioBytes m n) ↔ ∃ k, prefixLength m n ≤ k ∧ k < n ∧ m.read k = c := by
  rw [stripPrefix_ioBytes, List.mem_map]
  refine exists_congr fun k => ?_
  rw [List.mem_range'_1, and_assoc]
  refine and_congr_right fun hk => and_congr_left' ?_
  omega

/-- Counted from the end of the text, character k is byte n - 1 - k of IOBUF, and '0' stands before the first. -/
theorem getD_reverse_stripPrefix_ioBytes (m : Memory) (n k : Nat) :
    (stripPrefix (ioBytes m n)).reverse.getD k 0x30#8 =
      if k < n - prefixLength m n then m.read (n - 1 - k) else 0x30#8 := by
  have hlen := length_stripPrefix_ioBytes m n
  rw [List.getD_eq_getElem?_getD]
  split
  · rw [List.getElem?_reverse (by omega), hlen, stripPrefix_ioBytes, List.getElem?_map, List.getElem?_range' (by omega)]
    simp only [Option.map_some, Option.getD_some]
    congr 1
    omega
  · rw [List.getElem?_eq_none (by rw [List.length_reverse]; omega)]
    rfl

/-- A text is its leading 0x or 0X, if it has one, and what is left after it (R121). -/
theorem exists_prefix_append_stripPrefix (l : List Byte) :
    ∃ pre, (pre = [] ∨ pre = [0x30#8, 0x78#8] ∨ pre = [0x30#8, 0x58#8]) ∧ pre ++ stripPrefix l = l := by
  match l with
  | [] | [_] => exact ⟨[], .inl rfl, rfl⟩
  | c0 :: c1 :: t =>
    rw [stripPrefix]
    split
    case isTrue h =>
      obtain ⟨rfl, rfl | rfl⟩ := h
      · exact ⟨_, .inr (.inl rfl), rfl⟩
      · exact ⟨_, .inr (.inr rfl), rfl⟩
    case isFalse => exact ⟨[], .inl rfl, rfl⟩

/-! The checks of FROMHEX -/

theorem parseHex_tooLong {m : Memory} {n : Nat} (h : 66 < n) : parseHex m n = .error causeHexTooWide := if_pos h

theorem parseHex_eq_parseDigits {m : Memory} {n : Nat} (h : n ≤ 66) :
    parseHex m n = parseDigits (stripPrefix (ioBytes m n)) := if_neg (by omega)

theorem parseDigits_empty {t : List Byte} (h : t.length = 0) : parseDigits t = .error causeEmpty := if_pos h

theorem parseDigits_tooWide {t : List Byte} (h : 64 < t.length) : parseDigits t = .error causeHexTooWide := by
  rw [parseDigits, if_neg (by omega), if_pos h]

theorem parseDigits_badDigit {t : List Byte} {c : Byte} (h1 : 1 ≤ t.length) (h64 : t.length ≤ 64) (hc : c ∈ t)
    (hn : hexval c = none) : parseDigits t = .error causeBadDigit := by
  rw [parseDigits, if_neg (by omega), if_neg (by omega), if_pos]
  exact List.any_eq_true.mpr ⟨c, hc, by rw [hn]; rfl⟩

/-- Of a text with a value, every check holds, and the value is the number it spells. -/
theorem parseDigits_eq_ok {t : List Byte} {v : Value} (h : parseDigits t = .ok v) :
    (∀ c ∈ t, (hexval c).isSome = true) ∧ t.length ≤ 64 ∧ v = BitVec.ofNat 256 (hexNumber t) := by
  have h1 : 1 ≤ t.length := by
    by_contra hlt
    cases (parseDigits_empty (t := t) (by omega)).symm.trans h
  have h64 : t.length ≤ 64 := by
    by_contra hlt
    cases (parseDigits_tooWide (t := t) (by omega)).symm.trans h
  have hd : ∀ c ∈ t, (hexval c).isSome = true := by
    intro c hc
    cases hx : hexval c with
    | some d => rfl
    | none => cases (parseDigits_badDigit h1 h64 hc hx).symm.trans h
  exact ⟨hd, h64, Except.ok.inj (h.symm.trans (parseDigits_ok hd h1 h64))⟩

/-- Of an IOBUF text that parses, what `stripPrefix` leaves is at most 64 digits, and the value is their number. -/
theorem parseHex_eq_ok {m : Memory} {n : Nat} {v : Value} (h : parseHex m n = .ok v) :
    (∀ c ∈ stripPrefix (ioBytes m n), (hexval c).isSome = true) ∧ (stripPrefix (ioBytes m n)).length ≤ 64 ∧
      v = BitVec.ofNat 256 (hexNumber (stripPrefix (ioBytes m n))) := by
  have hn : n ≤ 66 := by
    by_contra hlt
    cases (parseHex_tooLong (m := m) (not_le.mp hlt)).symm.trans h
  exact parseDigits_eq_ok ((parseHex_eq_parseDigits hn).symm.trans h)

theorem exec_fromhex_fails {s : State} {rd : RegIdx} {c : BitVec 4} (h : rd.toNat < s.vregs.length)
    (hp : parseHex s.iobuf s.iolen.toNat = .error c) : exec (.fromhex rd) s = .next (raise 0x10#8 .construction c s) := by
  rw [exec_fromhex h, hp]

theorem exec_fromhex_reads {s : State} {rd : RegIdx} {v : Value} (h : rd.toNat < s.vregs.length)
    (hp : parseHex s.iobuf s.iolen.toNat = .ok v) : exec (.fromhex rd) s = .next (complete 0x10#8 (s.setV rd v)) := by
  rw [exec_fromhex h, hp]

/-- FROMHEX reports success only of a text with a value; the register then holds it, and IOBUF is as before (R121). -/
theorem fromhex_succeeds {s t : State} {rd : RegIdx} (h : rd.toNat < s.vregs.length) (hx : exec (.fromhex rd) s = .next t)
    (herr : t.status.err = .none) :
    parseHex s.iobuf s.iolen.toNat = .ok (t.getV rd) ∧ t.iobuf = s.iobuf ∧ t.vregs.length = s.vregs.length := by
  cases hp : parseHex s.iobuf s.iolen.toNat with
  | error c =>
    cases (exec_fromhex_fails h hp).symm.trans hx
    cases herr
  | ok v =>
    cases (exec_fromhex_reads h hp).symm.trans hx
    rw [complete_getV, State.setV_getV_same h]
    exact ⟨rfl, rfl, List.length_set⟩

/-! What TOHEX leaves -/

/-- TOHEX as one update of the state: IOBUF, IOLEN and STATUS (R122). -/
theorem exec_tohex_next {s : State} {r : RegIdx} (h : r.toNat < s.vregs.length) :
    exec (.tohex r) s =
      .next { s with
        iobuf := s.iobuf.writeBytes 0 (hexText (s.getV r))
        iolen := 66#16
        status := successReport 0x11#8 s.status } := by
  rw [exec_tohex h, complete, State.exportBytes, length_hexText]

/-- The text covers all 66 bytes of IOBUF (R122). -/
theorem read_export_hexText_inside {m : Memory} (hw : m.wf = true) (v : Value) {k : Nat} (hk : k < 66) :
    (m.writeBytes 0 (hexText v)).read k = (hexText v).getD k 0#8 :=
  (read_export_hexText hw v k).trans (if_pos hk)

/-- What FROMHEX may rely on after TOHEX: the length, the text and the registers (R123). -/
theorem tohex_answers {s : State} {r : RegIdx} (hw : s.iobuf.wf = true) (h : r.toNat < s.vregs.length) :
    ∃ t, exec (.tohex r) s = .next t ∧ t.iolen = 66#16 ∧ t.vregs = s.vregs ∧
      ∀ k < 66, t.iobuf.read k = (hexText (s.getV r)).getD k 0#8 := by
  refine ⟨_, exec_tohex h, ?_, rfl, fun k hk => ?_⟩
  · rw [complete_iolen, State.exportBytes_iolen, length_hexText]
  · rw [complete_iobuf, State.exportBytes_iobuf, read_export_hexText_inside hw _ hk]

/-- A buffer that holds the text of a value parses to the value (R123). -/
theorem parseHex_hexText {m : Memory} {v : Value} (h : ∀ k < 66, m.read k = (hexText v).getD k 0#8) :
    parseHex m 66 = .ok v := by
  have hl := length_hexText v
  have hread : ioBytes m 66 = hexText v := by
    conv_lhs => rw [← hl]
    exact ioBytes_eq fun k hk => h k (by omega)
  rw [parseHex_eq_parseDigits le_rfl, hread, stripPrefix_hexText, parseDigits_rendered]

/-! The obligations -/

/-- Settles O15: the checks are those of `parseDigits` on what `stripPrefix` leaves, and the value's bytes are its digits
two by two. -/
theorem fromhexFollowsItsSteps : Obligations.FromhexFollowsItsSteps := by
  intro s rd hrd L p r digit fails
  have hlen : (stripPrefix (ioBytes s.iobuf L)).length = r := length_stripPrefix_ioBytes s.iobuf L
  have hfails {cause : BitVec 4} (hL : L ≤ 66) (h : parseDigits (stripPrefix (ioBytes s.iobuf L)) = .error cause) :
      fails cause := exec_fromhex_fails hrd ((parseHex_eq_parseDigits hL).trans h)
  refine ⟨fun hL => exec_fromhex_fails hrd (parseHex_tooLong hL), fun hL h0 => hfails hL (parseDigits_empty (by omega)),
    fun hL h64 => hfails hL (parseDigits_tooWide (by omega)), ?_, ?_, decode_rdRow (o := .fromhex) rfl rd 0 0⟩
  · rintro hL h1 h64 ⟨k, hpk, hkL, hnone⟩
    exact hfails hL
      (parseDigits_badDigit (by omega) (by omega) (mem_stripPrefix_ioBytes.mpr ⟨k, hpk, hkL, rfl⟩) hnone)
  · intro hL h1 h64 hdigits
    have hd : ∀ c ∈ stripPrefix (ioBytes s.iobuf L), (hexval c).isSome = true := by
      intro c hc
      obtain ⟨k, hpk, hkL, rfl⟩ := mem_stripPrefix_ioBytes.mp hc
      exact Option.isSome_iff_ne_none.mpr (hdigits k hpk hkL)
    have hdigit (k : Nat) :
        (hexval ((stripPrefix (ioBytes s.iobuf L)).reverse.getD k 0x30#8)).getD 0 = digit k := by
      rw [getD_reverse_stripPrefix_ioBytes, apply_ite hexval, apply_ite (Option.getD · 0)]
      rfl
    refine ⟨BitVec.ofNat 256 (hexNumber (stripPrefix (ioBytes s.iobuf L))), fun j _ => ?_,
      exec_fromhex_reads hrd ((parseHex_eq_parseDigits hL).trans (parseDigits_ok hd (by omega) (by omega)))⟩
    rw [byteAt_hexNumber (by omega), hdigit, hdigit]

/-- Settles O16: the buffer after the command is `hexText`, read group by group. -/
theorem tohexRendersCanonicalText : Obligations.TohexRendersCanonicalText := by
  intro s rs1 hwf hr
  have hread {k : Nat} := read_export_hexText_inside hwf (s.getV rs1) (k := k)
  refine ⟨decode_rs1Row (o := .tohex) rfl 0 rs1 0, s.iobuf.writeBytes 0 (hexText (s.getV rs1)),
    Memory.wf_writeBytes hwf _ _, exec_tohex_next hr, (hread (by decide)).trans (hexText_zero _),
    (hread (by decide)).trans (hexText_one _), fun k hk => ?_⟩
  rw [hread (by omega), hread (by omega)]
  exact hexText_group _ hk

/-- Settles O17: what TOHEX leaves in IOBUF and IOLEN parses back to the value. -/
theorem hexTextRoundTrip : Obligations.HexTextRoundTrip := by
  intro s rs1 rd hwf hr hrd
  obtain ⟨t, ht, hiolen, hvregs, hread⟩ := tohex_answers hwf hr
  have hparse : parseHex t.iobuf t.iolen.toNat = .ok (s.getV rs1) := by
    rw [hiolen]
    exact parseHex_hexText hread
  refine ⟨t, _, ht, hiolen, exec_fromhex_reads (hvregs ▸ hrd) hparse, rfl, ?_⟩
  rw [complete_vregs, State.setV_vregs, hvregs]

/-- Settles O18: the accepted text is digits after an optional 0x, and TOHEX renders the digits of the number they spell. -/
theorem acceptedTextBecomesCanonical : Obligations.AcceptedTextBecomesCanonical := by
  intro s t rd hwf hrd hx herr
  obtain ⟨hparse, hiobuf, hlength⟩ := fromhex_succeeds hrd hx herr
  obtain ⟨hd, h64, hvalue⟩ := parseHex_eq_ok hparse
  obtain ⟨pre, hpre, happend⟩ := exists_prefix_append_stripPrefix (ioBytes s.iobuf s.iolen.toNat)
  obtain ⟨u, hu, hiolen, -, hread⟩ := tohex_answers (r := rd) (hiobuf ▸ hwf) (hlength ▸ hrd)
  refine ⟨stripPrefix (ioBytes s.iobuf s.iolen.toNat), u, ⟨pre, hpre, ?_, fun k hk => ?_⟩, hd, hu, hiolen,
    (hread 0 (by decide)).trans (hexText_zero _), (hread 1 (by decide)).trans (hexText_one _), fun k hk => ?_⟩
  · rw [← List.length_append, happend, length_ioBytes]
  · rw [happend, getD_ioBytes _ hk]
  · rw [hread _ (by omega), hexText_digit _ hk, hvalue, toNat_ofNat_hexNumber h64]
    rfl

end Sys2Proof.Machine
end

section
/-! PROOFS. Shifts (42_shift.md R144, R145, R147). The laws `exec_shl` and `exec_shr` say the two commands as bit vector
shifts; what is added here is the arithmetic of those shifts and what two commands in a row leave in the registers. -/

namespace Sys2Proof.Machine

/-! Shifts as arithmetic -/

/-- A left shift is a product, what passes bit 255 dropped (R144). -/
theorem toNat_shiftLeft_eq_mul_mod (v : Value) (n : Nat) : (v <<< n).toNat = v.toNat * 2 ^ n % 2 ^ 256 := by
  rw [BitVec.toNat_shiftLeft, Nat.shiftLeft_eq]

/-- A right shift is a quotient (R145). -/
theorem toNat_ushiftRight_eq_div (v : Value) (n : Nat) : (v >>> n).toNat = v.toNat / 2 ^ n := by
  rw [BitVec.toNat_ushiftRight, Nat.shiftRight_eq_div_pow]

/-- Where a bit of a left shift comes from (R144). -/
theorem getLsbD_shiftLeft_of_lt (v : Value) (n : Nat) {k : Nat} (hk : k < 256) :
    (v <<< n).getLsbD k = (decide (n ≤ k) && v.getLsbD (k - n)) := by
  rw [BitVec.getLsbD_shiftLeft, decide_eq_true hk, Bool.true_and, ← decide_not, decide_eq_decide.mpr not_lt]

/-- Shifting left and back by one amount drops the top n bits: the factor 2^n cancels under the modulus (R147). -/
theorem shiftLeft_ushiftRight_eq_mod (v : Value) {n : Nat} (hn : n ≤ 256) :
    v <<< n >>> n = BitVec.ofNat 256 (v.toNat % 2 ^ (256 - n)) := by
  apply BitVec.eq_of_toNat_eq
  have hlt : v.toNat % 2 ^ (256 - n) < 2 ^ 256 := (Nat.mod_le _ _).trans_lt v.isLt
  calc (v <<< n >>> n).toNat
      = v.toNat * 2 ^ n % 2 ^ 256 / 2 ^ n := by rw [toNat_ushiftRight_eq_div, toNat_shiftLeft_eq_mul_mod]
    _ = v.toNat * 2 ^ n % (2 ^ (256 - n) * 2 ^ n) / 2 ^ n := by rw [Nat.pow_sub_mul_pow 2 hn]
    _ = v.toNat % 2 ^ (256 - n) := by rw [Nat.mul_mod_mul_right, Nat.mul_div_cancel _ (Nat.two_pow_pos n)]
    _ = (BitVec.ofNat 256 (v.toNat % 2 ^ (256 - n))).toNat := by rw [BitVec.toNat_ofNat, Nat.mod_eq_of_lt hlt]

/-! The registers after a shift -/

/-- Writing a register's own value back leaves the registers as they were. -/
theorem vregs_set_getV {s : State} {r : RegIdx} (h : r.toNat < s.vregs.length) :
    s.vregs.set r.toNat (s.getV r) = s.vregs := by
  rw [State.getV, List.getD_eq_getElem _ _ h, List.set_getElem_self]

/-- SHR right after SHL, by the same OPA: the one register holds the value shifted left and back. -/
theorem exec_shl_then_shr {s : State} {rd : RegIdx} (h : rd.toNat < s.vregs.length) :
    ∃ t u, exec (.shl rd) s = .next t ∧ exec (.shr rd) t = .next u ∧
      t.vregs = s.vregs.set rd.toNat (s.getV rd <<< s.opa.toNat) ∧
      u.vregs = s.vregs.set rd.toNat (s.getV rd <<< s.opa.toNat >>> s.opa.toNat) := by
  refine ⟨_, _, exec_shl h, exec_shr (h.trans_eq List.length_set.symm), rfl, ?_⟩
  simp only [complete_vregs, complete_opa, complete_getV, State.setV_vregs, State.setV_opa, State.setV_getV_same h,
    List.set_set]

/-! The obligations -/

/-- Settles O19: the value is the bit vector shift, read as a product and bit by bit. -/
theorem shlMultipliesByPowerOfTwo : Obligations.ShlMultipliesByPowerOfTwo := by
  intro s rd hrd
  exact ⟨_, exec_shl hrd, toNat_shiftLeft_eq_mul_mod _ _, fun _ hk => getLsbD_shiftLeft_of_lt _ _ hk,
    BitVec.shiftLeft_eq_zero⟩

/-- Settles O20: the value is the bit vector shift, read as a quotient. -/
theorem shrDividesByPowerOfTwo : Obligations.ShrDividesByPowerOfTwo := by
  intro s rd hrd
  exact ⟨_, exec_shr hrd, toNat_ushiftRight_eq_div _ _, BitVec.ushiftRight_eq_zero⟩

/-- Settles O21: the amounts 0, below 256 and from 256 each have their equation of bit vector shifts. -/
theorem shiftLeftThenRightKeepsLowBits : Obligations.ShiftLeftThenRightKeepsLowBits := by
  intro s rd hrd
  obtain ⟨t, u, ht, hu, hleft, hback⟩ := exec_shl_then_shr hrd
  obtain ⟨r, hr, hright⟩ :
      ∃ r, exec (.shr rd) s = .next r ∧ r.vregs = s.vregs.set rd.toNat (s.getV rd >>> s.opa.toNat) :=
    ⟨_, exec_shr hrd, rfl⟩
  refine ⟨t, u, r, ht, hu, hr, fun h0 => ?_, fun hlt => ?_, fun hge => ?_⟩
  · have hn : s.opa.toNat = 0 := congrArg BitVec.toNat h0
    rw [hleft, hright, hn, BitVec.shiftLeft_zero, BitVec.ushiftRight_zero]
    exact ⟨vregs_set_getV hrd, vregs_set_getV hrd⟩
  · rw [hback, shiftLeft_ushiftRight_eq_mod _ hlt.le]
  · rw [hleft, hright, BitVec.shiftLeft_eq_zero hge, BitVec.ushiftRight_eq_zero hge]
    exact ⟨rfl, rfl⟩

end Sys2Proof.Machine
end

section
/-! PROOFS. Addition, multiplication, narrowing, byte access (43_add_narrow.md R160 to R169). Each command's value is said
once, as an equation of bit vectors or byte by byte; the obligations read it off. -/

namespace Sys2Proof

/-- A word is a given command that uses all three register fields exactly when it matches the row and bits 11:8, 15:12 and
19:16 are the registers (30_encoding.md R81, R82). -/
theorem decode_allFieldsRow {o : Op} (ho : maskBits o = 0xFFF000FF#32) (rd rs1 rs2 : RegIdx) (w : Word) :
    decode w = .ok (instrOf o rd rs1 rs2) ↔
      w &&& 0xFFF000FF#32 = matchBits o ∧ w.extractLsb' 8 4 = rd ∧ w.extractLsb' 12 4 = rs1 ∧ w.extractLsb' 16 4 = rs2 := by
  rw [decode_row, ho]
  cases o with
  | add | mul => simp [instrOf, rdField, rs1Field, rs2Field]
  | zero | one | fromu8 | fromu32 | fromu64 | fromslice | fromhex | shl | shr
  | tohex | tou8 | tou32 | tou64 | getbyte | asbytes => exact absurd ho (by decide)

end Sys2Proof

namespace Sys2Proof.Machine

/-! Addition -/

/-- Byte i of a sum is stage i of the ripple-carry chain (R160). -/
theorem toNat_byteAt_add (a b : Value) {i : Nat} (hi : i < 32) :
    (byteAt (a + b) i).toNat = (carryInto a b i + (byteAt a i).toNat + (byteAt b i).toNat) % 256 := by
  rw [← rippleAdd_eq_add, rippleAdd, byteAt_ofBytes _ hi, sumByte, BitVec.toNat_ofNat]
  exact Nat.mod_mod _ _

/-- The sum of two values is the sum of their numbers modulo 2^256 (R161). -/
theorem add_eq_ofNat_mod (a b : Value) : a + b = BitVec.ofNat 256 ((a.toNat + b.toNat) % 2 ^ 256) := by
  apply BitVec.eq_of_toNat_eq
  rw [BitVec.toNat_add, BitVec.toNat_ofNat, Nat.mod_mod]

/-- What ADD leaves in the value registers: the sum in `V[rd]`, every other as it was (R160). -/
theorem add_answers {s : State} {rd a b : RegIdx} (hrd : rd.toNat < s.vregs.length) (ha : a.toNat < s.vregs.length)
    (hb : b.toNat < s.vregs.length) :
    ∃ t, exec (.add rd a b) s = .next t ∧ t.vregs.length = s.vregs.length ∧ t.getV rd = s.getV a + s.getV b ∧
      ∀ r, rd ≠ r → t.getV r = s.getV r :=
  ⟨_, exec_add hrd ha hb, List.length_set, State.setV_getV_same hrd _, fun _ hr => State.setV_getV_other hr.symm _⟩

/-! Multiplication -/

/-- MUL with a register out of range: the check of the registers comes first (30_encoding.md R83). -/
theorem exec_mul_outOfRange {s : State} {rd a b : RegIdx}
    (h : s.vregs.length ≤ rd.toNat ∨ s.vregs.length ≤ a.toNat ∨ s.vregs.length ≤ b.toNat) :
    exec (.mul rd a b) s = .next (raise 0x31#8 .illegal causeRegRange s) := by
  refine exec_outOfRange (i := .mul rd a b) fun hok => ?_
  obtain ⟨hrd, ha, hb⟩ := regsOk_three.mp hok
  exact h.elim hrd.not_ge fun h => h.elim ha.not_ge hb.not_ge

/-! Narrowing -/

/-- The check of R164, byte by byte. -/
theorem highBytesZero_iff_bytes (k : Nat) (v : Value) :
    highBytesZero k v = true ↔ ∀ i, k ≤ i → i < 32 → byteAt v i = 0#8 := by
  simp only [highBytesZero, List.all_eq_true, List.mem_range, Bool.or_eq_true, decide_eq_true_eq, beq_iff_eq]
  exact forall_congr' fun i => ⟨fun h hk hi => (h hi).resolve_left (by omega),
    fun h hi => (Nat.lt_or_ge i k).imp_right fun hk => h hk hi⟩

/-- What `narrow` puts in RES, the low k bytes, is the low 8k bits extended with zeros (R164). -/
theorem lowBytes_eq_zeroExtend (v : Value) (k : Nat) :
    BitVec.ofNat 64 (byteSum (byteAt v) k) = (v.extractLsb' 0 (8 * k)).zeroExtend 64 := by
  apply BitVec.eq_of_toNat_eq
  rw [BitVec.toNat_ofNat, byteSum_byteAt, BitVec.toNat_setWidth, BitVec.extractLsb'_toNat, Nat.shiftRight_zero, pow_mul,
    show (2 : Nat) ^ 8 = 256 from rfl]

/-- Narrowing a value whose high bytes are zero (R164). -/
theorem narrow_fits {s : State} {r : RegIdx} (hr : r.toNat < s.vregs.length) (op : Op) {k : Nat}
    (h : ∀ i, k ≤ i → i < 32 → byteAt (s.getV r) i = 0#8) :
    narrow op k r s = .next (complete (opcode op) (s.setRes (((s.getV r).extractLsb' 0 (8 * k)).zeroExtend 64))) := by
  rw [narrow_inRange hr, if_pos ((highBytesZero_iff_bytes k _).mpr h), lowBytes_eq_zeroExtend]

/-- Narrowing a value with a high byte that is not zero (R164). -/
theorem narrow_overflows {s : State} {r : RegIdx} (hr : r.toNat < s.vregs.length) (op : Op) {k : Nat}
    (h : ¬ ∀ i, k ≤ i → i < 32 → byteAt (s.getV r) i = 0#8) :
    narrow op k r s = .next (raise (opcode op) .overflow causeNone s) := by
  rw [narrow_inRange hr, if_neg fun hz => h ((highBytesZero_iff_bytes k _).mp hz)]

/-! Byte access -/

/-- GETBYTE with an index of a byte (R168). -/
theorem exec_getbyte_inRange {s : State} {r : RegIdx} (hr : r.toNat < s.vregs.length) (hi : s.opa.toNat < 32) :
    exec (.getbyte r) s = .next (complete 0x43#8 (s.setRes ((byteAt (s.getV r) s.opa.toNat).zeroExtend 64))) := by
  rw [exec_getbyte hr, if_neg (by omega)]

/-- GETBYTE with an index past the last byte (R168). -/
theorem exec_getbyte_pastEnd {s : State} {r : RegIdx} (hr : r.toNat < s.vregs.length) (hi : 32 ≤ s.opa.toNat) :
    exec (.getbyte r) s = .next (raise 0x43#8 .index causeNone s) := by
  rw [exec_getbyte hr, if_pos hi]

/-- ASBYTES as one update of the state: IOBUF, IOLEN and STATUS (R169). -/
theorem exec_asbytes_next {s : State} {r : RegIdx} (h : r.toNat < s.vregs.length) :
    exec (.asbytes r) s =
      .next { s with
        iobuf := s.iobuf.writeBytes 0 ((List.range 32).map (byteAt (s.getV r)))
        iolen := 32#16
        status := successReport 0x44#8 s.status } := by
  rw [exec_asbytes h, complete, State.exportBytes, List.length_map, List.length_range]

/-! The obligations -/

/-- Settles O22: the carries are `carryInto`, and the sum `exec_add` writes has the chain's bytes. -/
theorem addIsTheRippleCarrySum : Obligations.AddIsTheRippleCarrySum := by
  intro s rd rs1 rs2 hrd h1 h2
  exact ⟨decode_allFieldsRow (o := .add) rfl rd rs1 rs2, carryInto (s.getV rs1) (s.getV rs2), s.getV rs1 + s.getV rs2, rfl,
    fun i hi => ⟨toNat_byteAt_add _ _ hi, rfl, carryInto_le_one _ _ (i + 1)⟩, exec_add hrd h1 h2⟩

/-- Settles O23: the registers after ADD hold bit vector sums, and the laws are those of bit vector addition. -/
theorem addIsAdditionModulo : Obligations.AddIsAdditionModulo := by
  intro s rd rs1 rs2 hrd h1 h2
  refine ⟨?_, ?_, fun hzero => ?_, fun p q hp hq hprd hp1 _ => ?_⟩
  · rw [← add_eq_ofNat_mod]
    exact exec_add hrd h1 h2
  · rw [exec_add hrd h1 h2, exec_add hrd h2 h1, BitVec.add_comm]
  · obtain ⟨t, ht, -, hsum, -⟩ := add_answers hrd h1 h2
    exact ⟨t, ht, by rw [hsum, hzero, BitVec.add_zero]⟩
  · obtain ⟨t, ht, hlen, hpsum, hkeep⟩ := add_answers hp h1 h2
    obtain ⟨t', ht', hlen', hpsum', hkeep'⟩ := add_answers hp h2 hrd
    obtain ⟨u, hu, -, hsum, -⟩ := add_answers (s := t) (hlen ▸ hq) (hlen ▸ hp) (hlen ▸ hrd)
    obtain ⟨u', hu', -, hsum', -⟩ := add_answers (s := t') (hlen' ▸ hq) (hlen' ▸ h1) (hlen' ▸ hp)
    refine ⟨t, u, t', u', ht, hu, ht', hu', ?_⟩
    rw [hsum, hsum', hpsum, hkeep rd hprd, hpsum', hkeep' rs1 hp1, BitVec.add_assoc]

/-- Settles O24: in range the command is `raise`; out of range the register check reports before it. -/
theorem mulAlwaysFailsUnimplemented : Obligations.MulAlwaysFailsUnimplemented := by
  intro s rd rs1 rs2
  exact ⟨exec_mul, exec_mul_outOfRange, decode_allFieldsRow (o := .mul) rfl rd rs1 rs2⟩

/-- Settles O25: the three commands are `narrow` to 1, 4 and 8 bytes, the last being all of RES. -/
theorem narrowingChecksTheHighBytes : Obligations.NarrowingChecksTheHighBytes := by
  intro s r hr high good bad
  have h64 : ((s.getV r).extractLsb' 0 64).zeroExtend 64 = (s.getV r).extractLsb' 0 64 := BitVec.setWidth_eq _
  refine ⟨narrow_fits hr .tou8, narrow_overflows hr .tou8, narrow_fits hr .tou32, narrow_overflows hr .tou32,
    fun h => ?_, narrow_overflows hr .tou64, decode_rs1Row (o := .tou8) rfl 0 r 0, decode_rs1Row (o := .tou32) rfl 0 r 0,
    decode_rs1Row (o := .tou64) rfl 0 r 0⟩
  rw [← h64]
  exact narrow_fits hr .tou64 h

/-- Settles O27: the index is compared as the 64-bit number it is. -/
theorem getbyteReadsOneByte : Obligations.GetbyteReadsOneByte := by
  intro s r hr
  exact ⟨exec_getbyte_inRange hr, exec_getbyte_pastEnd hr, decode_rs1Row (o := .getbyte) rfl 0 r 0⟩

/-- Settles O28: the buffer after the command reads as the value's bytes, and past them as before. -/
theorem asbytesCopiesInStorageOrder : Obligations.AsbytesCopiesInStorageOrder := by
  intro s r hwf hr
  have hread (k : Nat) := read_export_bytes hwf (s.getV r) k
  exact ⟨decode_rs1Row (o := .asbytes) rfl 0 r 0, _, Memory.wf_writeBytes hwf _ _, exec_asbytes_next hr,
    fun k hk => (hread k).trans (if_pos hk), fun k hk => (hread k).trans (if_neg (by omega))⟩

end Sys2Proof.Machine
end

section
/-! PROOFS. The report (60_exceptions.md R203 to R205). A word written to CMD ends in one of the two reports, `raise` or the
success report; what a failure keeps, what a success keeps and when STICKY changes are all read off that. -/

namespace Sys2Proof

/-- OPC of a command that runs is the opcode of the row it was decoded from (30_encoding.md R82). -/
theorem opField_of_decode {w : Word} {i : Instr} (h : decode w = .ok i) : opField w = opcode i.op := by
  obtain ⟨o, ho, -, rfl⟩ := decode_eq_ok.mp h
  rwa [op_instrOf]

end Sys2Proof

namespace Sys2Proof.Machine

/-! The two reports -/

/-- A command fails by some `raise`, or ends with the success report (60_exceptions.md R203, R204). -/
theorem Ends.raised_or_succeeded {i : Instr} {s t : State} (h : Ends i s t) :
    (∃ k c, k ≠ .none ∧ t = raise (opcode i.op) k c s) ∨ t.status = successReport (opcode i.op) s.status := by
  cases h with
  | failed k c hk => exact .inl ⟨k, c, hk, rfl⟩
  | wroteV | wroteRes | exported => exact .inr rfl

/-- The same of any word written to CMD: an illegal word raises too (30_encoding.md R83). -/
theorem Executes.raised_or_succeeded {w : Word} {s t : State} (h : Executes w s t) :
    (∃ k c, k ≠ .none ∧ t = raise (opField w) k c s) ∨ t.status = successReport (opField w) s.status := by
  cases h with
  | reserved | nonzero => exact .inl ⟨.illegal, _, by decide, rfl⟩
  | ran i _ hi he =>
    rw [opField_of_decode hi]
    exact he.raised_or_succeeded

/-- STICKY after a word written to CMD: set by a failure, otherwise as it was (60_exceptions.md R205). -/
theorem Executes.sticky {w : Word} {s t : State} (h : Executes w s t) :
    t.status.sticky = (s.status.sticky || decide (t.status.err ≠ .none)) := by
  obtain ⟨k, c, hk, rfl⟩ | ht := h.raised_or_succeeded
  · simp [hk]
  · simp [ht]

/-! The report after a step -/

/-- A step on a write of CMD executes the word with CMD stored and the access consumed (10_state.md R31). -/
theorem executes_of_step {s t : State} {w : Word} {rest : List HostEvent} (hp : s.pending = .write 0x00 4 w :: rest)
    (h : step s = .next t) : Executes w { s with pending := rest, cmd := w } t := by
  obtain ⟨u, hu, he⟩ := execute_executes w { s with pending := rest, cmd := w }
  cases ((step_command hp).trans hu).symm.trans h
  exact he

/-- An event that is neither a reset nor a write of CMD does not touch STATUS (10_state.md R32; 20_memory.md R68). -/
theorem Performs.status_eq {s t : State} {e : HostEvent} (h : Performs s e t) (hreset : e ≠ .reset)
    (hcmd : ∀ w, e ≠ .write 0x00 4 w) : t.status = s.status := by
  cases h with
  | read => rfl
  | store off w _ _ hc =>
    obtain ⟨-, -, hstatus, -⟩ := storeReg_frame (s := s) w hc
    exact hstatus
  | command off w _ _ _ hc => exact absurd (regAt_eq_cmd.mp hc ▸ rfl) (hcmd w)
  | reset => exact absurd rfl hreset

/-- The same of a step on such an event. -/
theorem step_status_eq {s t : State} {e : HostEvent} {rest : List HostEvent} (hp : s.pending = e :: rest)
    (h : step s = .next t) (hreset : e ≠ .reset) (hcmd : ∀ w, e ≠ .write 0x00 4 w) : t.status = s.status := by
  obtain ⟨hnil, -⟩ | ⟨e', rest', hcons, hperf⟩ := step_cases h
  · cases hp.symm.trans hnil
  · cases hp.symm.trans hcons
    exact hperf.status_eq hreset hcmd

/-! The obligations -/

/-- Settles O35: a report with an error kind is no success report, so the command ended by `raise`, which keeps the host's
next access in its place. -/
theorem failureChangesOnlyStatus : Obligations.FailureChangesOnlyStatus := by
  intro s t w rest hp hstep herr
  obtain ⟨k, c, hk, rfl⟩ | ht := (executes_of_step hp hstep).raised_or_succeeded
  · exact ⟨⟨k, c, hk, rfl⟩, fun w' rest' hrest => step_command hrest⟩
  · rw [ht] at herr
    exact absurd rfl herr

/-- Settles O36: a report with no error kind is no `raise`, so it is the success report. -/
theorem successLeavesSticky : Obligations.SuccessLeavesSticky := by
  intro s t w rest hp hstep herr
  obtain ⟨k, c, hk, rfl⟩ | ht := (executes_of_step hp hstep).raised_or_succeeded
  · exact absurd herr hk
  · rw [ht]
    exact ⟨rfl, rfl, rfl⟩

/-- Settles O37: an event is a reset, or a write of CMD, or leaves STATUS alone; that STICKY stays set follows from the
other two. -/
theorem stickyIsClearedOnlyByReset : Obligations.StickyIsClearedOnlyByReset := by
  intro s t e rest hp hstep
  have hcommand : ∀ w, e = .write 0x00 4 w → t.status.sticky = (s.status.sticky || decide (t.status.err ≠ .none)) := by
    rintro w rfl
    exact (executes_of_step hp hstep).sticky
  refine ⟨?_, fun hreset hset => ?_, hcommand, step_status_eq hp hstep⟩
  · rintro rfl
    cases (step_reset hp).symm.trans hstep
    rfl
  · by_cases hcmd : ∃ w, e = .write 0x00 4 w
    · obtain ⟨w, hw⟩ := hcmd
      rw [hcommand w hw, hset, Bool.true_or]
    · rw [step_status_eq hp hstep hreset (not_exists.mp hcmd), hset]

end Sys2Proof.Machine
end

section
/-! PROOFS. The encoder against the decoder (30_encoding.md R80 to R84). The fields of an encoded word are read off
`packFields`; a word that decodes has zeros in every field that packing leaves at zero. -/

namespace Sys2Proof

/-- Bits 7:0 of an encoded word are the command's opcode (R81, R82). -/
theorem opField_encode (i : Instr) : opField (encode i) = opcode i.op := by
  cases i <;> exact opField_packFields _ _ _ _

/-- An encoded word has zeros in bits 31:20 and in every field its command does not use (R81). -/
theorem unusedZero_encode (i : Instr) : unusedZero i.op (encode i) := by
  cases i with
  | zero | one | fromu8 | fromu32 | fromu64 | fromslice | fromhex | shl | shr =>
    exact ⟨topBits_packFields _ _ _ _, rs1Field_packFields _ _ _ _, rs2Field_packFields _ _ _ _⟩
  | tohex | tou8 | tou32 | tou64 | getbyte | asbytes =>
    exact ⟨topBits_packFields _ _ _ _, rdField_packFields _ _ _ _, rs2Field_packFields _ _ _ _⟩
  | add | mul => exact ⟨topBits_packFields _ _ _ _, trivial⟩

/-- A command is its operation with the fields its word carries: the used ones come back, the others are dropped (R81). -/
theorem instrOf_fields_encode (i : Instr) :
    instrOf i.op (rdField (encode i)) (rs1Field (encode i)) (rs2Field (encode i)) = i := by
  cases i with
  | zero | one | fromu8 | fromu32 | fromu64 | fromslice | fromhex | shl | shr =>
    simp [instrOf, Instr.op, encode, rdField_packFields]
  | tohex | tou8 | tou32 | tou64 | getbyte | asbytes => simp [instrOf, Instr.op, encode, rs1Field_packFields]
  | add | mul => simp [instrOf, Instr.op, encode, rdField_packFields, rs1Field_packFields, rs2Field_packFields]

/-- Encoding a row's command packs the row's opcode with the register fields, where those it does not use are 0 (R81). -/
theorem encode_instrOf {o : Op} {w : Word} (h : unusedZero o w) :
    encode (instrOf o (rdField w) (rs1Field w) (rs2Field w)) = packFields (opcode o) (rdField w) (rs1Field w) (rs2Field w) := by
  cases o with
  | zero | one | fromu8 | fromu32 | fromu64 | fromslice | fromhex | shl | shr =>
    obtain ⟨-, hrs1, hrs2⟩ := h
    rw [hrs1, hrs2]
    rfl
  | tohex | tou8 | tou32 | tou64 | getbyte | asbytes =>
    obtain ⟨-, hrd, hrs2⟩ := h
    rw [hrd, hrs2]
    rfl
  | add | mul => rfl

/-! The obligations -/

/-- Settles O1: the encoded word has its command's opcode and no other bit set, so it decodes to the fields it carries. -/
theorem decodeOfEncodeIsTheCommand : Obligations.DecodeOfEncodeIsTheCommand := by
  intro i
  exact decode_eq_ok.mpr ⟨i.op, opField_encode i, unusedZero_encode i, (instrOf_fields_encode i).symm⟩

/-- Settles O2: the word's bits outside the used fields are zero, so packing its fields gives it back. -/
theorem encodeOfDecodeIsTheWord : Obligations.EncodeOfDecodeIsTheWord := by
  intro w i h
  obtain ⟨o, hop, hunused, rfl⟩ := decode_eq_ok.mp h
  have ⟨htop, _⟩ := hunused
  rw [encode_instrOf hunused, ← hop, packFields_of_topBits htop]

end Sys2Proof

namespace Sys2Proof.Machine

/-- Settles O7: the register check precedes every meaning, and OPC is the opcode of the encoded command. -/
theorem registerOutOfRangeIsIllegal : Obligations.RegisterOutOfRangeIsIllegal := by
  rintro i s ⟨r, hr, hge⟩
  have hbad : ¬ regsOk s.numVRegs i.regs = true := fun hok =>
    hge.not_gt (of_decide_eq_true (List.all_eq_true.mp hok r hr))
  have hopc : (encode i).extractLsb' 0 8 = opcode i.op := opField_encode i
  rw [hopc]
  exact exec_outOfRange hbad

/-- Settles O6: the write of CMD executes the word, and a word that decodes executes as its command. -/
theorem stepRunsTheDecodedCommand : Obligations.StepRunsTheDecodedCommand := by
  intro s w rest i hp hi
  rw [step_command hp, execute, hi]

end Sys2Proof.Machine
end

section
/-! PROOFS. Runs and the invariant (20_memory.md R69, R70; 60_exceptions.md R200 to R205; 70_reset_and_hazards.md R230). What
one performed event does to the host's accesses, the number of registers and each part of the invariant is said of
`Performs`; a step is then either idle or one such event. -/

namespace Sys2Proof

/-- A word refused for its opcode has an opcode that names no command (30_encoding.md R84). -/
theorem opOfCode_eq_none_of_decode {w : Word} (h : decode w = .error .reservedOpcode) : opOfCode (opField w) = none := by
  rw [decode] at h
  split at h
  · assumption
  · split at h <;> cases h

/-- A word refused for a nonzero field has an opcode that names a command (30_encoding.md R84). -/
theorem opOfCode_ne_none_of_decode {w : Word} (h : decode w = .error .nonzeroField) : opOfCode (opField w) ≠ none := by
  intro hn
  rw [decode, hn] at h
  cases h

end Sys2Proof

namespace Sys2Proof.Machine

/-! What a command keeps and reports -/

/-- No command changes the number of value registers (10_state.md R20). -/
theorem Ends.vregs_length {i : Instr} {s t : State} (h : Ends i s t) : t.vregs.length = s.vregs.length := by
  cases h with
  | wroteV => exact List.length_set
  | failed | wroteRes | exported => rfl

/-- No command breaks IOBUF's canonical form. -/
theorem Ends.iobuf_wf {i : Instr} {s t : State} (h : Ends i s t) (hwf : s.iobuf.wf = true) : t.iobuf.wf = true := by
  cases h with
  | exported => exact Memory.wf_writeBytes hwf _ _
  | failed | wroteV | wroteRes => exact hwf

/-- Every command leaves a legal report (60_exceptions.md R200, R201). -/
theorem Ends.legal {i : Instr} {s t : State} (h : Ends i s t) : t.status.legal = true := by
  cases h with
  | failed k c hk legal => exact legal
  | wroteV | wroteRes | exported => rfl

/-- The register count is kept by any word written to CMD, legal or not. -/
theorem Executes.vregs_length {w : Word} {s t : State} (h : Executes w s t) : t.vregs.length = s.vregs.length := by
  cases h with
  | reserved | nonzero => rfl
  | ran i _ _ he => exact he.vregs_length

/-- The canonical form is kept by any word written to CMD, legal or not. -/
theorem Executes.iobuf_wf {w : Word} {s t : State} (h : Executes w s t) (hwf : s.iobuf.wf = true) :
    t.iobuf.wf = true := by
  cases h with
  | reserved | nonzero => exact hwf
  | ran i _ _ he => exact he.iobuf_wf hwf

/-- The report of an illegal word is legal too: its cause says whether the opcode names a command (R201). -/
theorem Executes.legal {w : Word} {s t : State} (h : Executes w s t) : t.status.legal = true := by
  cases h with
  | reserved hw => simp [Status.legal, opOfCode_eq_none_of_decode hw, causeReservedOpcode]
  | nonzero hw => simp [Status.legal, opOfCode_ne_none_of_decode hw, causeNonzeroField]
  | ran i _ _ he => exact he.legal

/-- A report has STICKY set or is no failure, and its OPC is the opcode bits of the word (60_exceptions.md R203 to R205). -/
theorem Executes.sticky_and_opc {w : Word} {s t : State} (h : Executes w s t) :
    (t.status.err ≠ .none → t.status.sticky = true) ∧ t.status.opc = opField w := by
  obtain ⟨k, c, -, rfl⟩ | ht := h.raised_or_succeeded
  · exact ⟨fun _ => rfl, rfl⟩
  · rw [ht]
    exact ⟨fun herr => absurd rfl herr, rfl⟩

/-! What an event keeps -/

/-- Only the host puts accesses before the block; performing one adds none and takes none (20_memory.md R70). -/
theorem Performs.pending_eq {s t : State} {e : HostEvent} (h : Performs s e t) : t.pending = s.pending := by
  cases h with
  | read | reset => rfl
  | store off w _ _ hc =>
    obtain ⟨-, -, -, -, hpending, -⟩ := storeReg_frame (s := s) w hc
    exact hpending
  | command off w _ _ _ _ he =>
    obtain ⟨-, hpending, -⟩ := he.hostSide
    exact hpending

/-- Only a read gives the host a word (20_memory.md R70). -/
theorem Performs.reads_eq {s t : State} {e : HostEvent} (h : Performs s e t) (hread : ∀ off, e ≠ .read off 4) :
    t.reads = s.reads := by
  cases h with
  | read off => exact absurd rfl (hread off)
  | reset => rfl
  | store off w _ _ hc =>
    obtain ⟨-, -, -, -, -, hreads⟩ := storeReg_frame (s := s) w hc
    exact hreads
  | command off w _ _ _ _ he =>
    obtain ⟨-, -, hreads⟩ := he.hostSide
    exact hreads

/-- No event changes the number of value registers (10_state.md R20). -/
theorem Performs.vregs_length {s t : State} {e : HostEvent} (h : Performs s e t) : t.vregs.length = s.vregs.length := by
  cases h with
  | read => rfl
  | reset => exact List.length_replicate
  | store off w _ _ hc =>
    obtain ⟨hvregs, -⟩ := storeReg_frame (s := s) w hc
    rw [hvregs]
  | command off w _ _ _ _ he => exact he.vregs_length

/-- A reset state of a legal number of registers meets the invariant (10_state.md R40). -/
theorem State.resetWith_inv {n : Nat} (h1 : 1 ≤ n) (h16 : n ≤ 16) : (State.resetWith n).Inv where
  numVRegs := by simp [State.resetWith, h1, h16]
  iobuf := rfl
  legal := rfl
  sticky := fun h => absurd rfl h
  opc := rfl

/-- The invariant says nothing of the host's side. -/
theorem State.Inv.withHostSide {s : State} (h : s.Inv) (pending : List HostEvent) (reads : List Word) :
    State.Inv { s with pending := pending, reads := reads } := ⟨h.numVRegs, h.iobuf, h.legal, h.sticky, h.opc⟩

/-- A store of any register but CMD touches of the invariant's parts IOBUF only. -/
theorem State.Inv.storeReg {s : State} (h : s.Inv) {r : WindowReg} (w : Word) (hc : r ≠ .cmd) :
    (Machine.storeReg s r w).Inv := by
  obtain ⟨hvregs, -, hstatus, hcmd, -, -⟩ := storeReg_frame (s := s) w hc
  exact ⟨hvregs ▸ h.numVRegs, storeReg_wf h.iobuf r w, hstatus ▸ h.legal, hstatus ▸ h.sticky, hstatus ▸ hcmd ▸ h.opc⟩

/-- A word executed with CMD holding it leaves a report of its own, whatever the report before it was. -/
theorem Executes.inv {w : Word} {s t : State} (h : Executes w s t) (hn : 1 ≤ s.vregs.length ∧ s.vregs.length ≤ 16)
    (hwf : s.iobuf.wf = true) (hcmd : s.cmd = w) : t.Inv := by
  obtain ⟨htcmd, -, -⟩ := h.hostSide
  obtain ⟨hsticky, hopc⟩ := h.sticky_and_opc
  exact ⟨h.vregs_length ▸ hn, h.iobuf_wf hwf, h.legal, hsticky, by rw [hopc, htcmd, hcmd]; rfl⟩

/-- Every event keeps the invariant. -/
theorem Performs.inv {s t : State} {e : HostEvent} (h : Performs s e t) (hs : s.Inv) : t.Inv := by
  cases h with
  | read => exact hs.withHostSide _ _
  | store off w _ _ hc => exact hs.storeReg w hc
  | command off w _ _ _ _ he => exact he.inv hs.numVRegs hs.iobuf rfl
  | reset => exact (State.resetWith_inv hs.numVRegs.1 hs.numVRegs.2).withHostSide _ _

/-! Progress -/

/-- A defined event is performed: every check on the way passes and every command completes (60_exceptions.md R203, R207). -/
theorem perform_defined {e : HostEvent} (h : e.defined = true) (s : State) : ∃ t, perform e s = .next t := by
  cases e with
  | reset => exact ⟨_, rfl⟩
  | read off width =>
    simp only [HostEvent.defined, Bool.and_eq_true, beq_iff_eq, decide_eq_true_eq] at h
    obtain ⟨hchecked, hw⟩ := h
    exact ⟨_, by rw [perform, checkedAccess, if_pos hchecked, if_pos hw]⟩
  | write off width w =>
    simp only [HostEvent.defined, Bool.and_eq_true, beq_iff_eq, decide_eq_true_eq] at h
    obtain ⟨hchecked, hw⟩ := h
    rw [perform, checkedAccess, if_pos hchecked, if_pos hw, performWrite]
    split
    · obtain ⟨t, ht, -⟩ := execute_executes w (storeReg s .cmd w)
      exact ⟨t, ht⟩
    · exact ⟨_, rfl⟩

/-- A step takes the first access away, if there is one. -/
theorem pending_of_step {s t : State} (h : step s = .next t) : t.pending = s.pending.tail := by
  obtain ⟨hnil, rfl⟩ | ⟨e, rest, hcons, hperf⟩ := step_cases h
  · rw [hnil]
    rfl
  · rw [hperf.pending_eq, hcons]
    rfl

/-- A host of defined accesses is not stopped by one step, and its accesses to come are still defined. -/
theorem step_hostDefined {s : State} (h : s.hostDefined = true) : ∃ t, step s = .next t ∧ t.hostDefined = true := by
  have hall : ∀ e ∈ s.pending, e.defined = true := List.all_eq_true.mp h
  obtain ⟨t, ht⟩ : ∃ t, step s = .next t := by
    rw [step]
    split
    · exact ⟨s, rfl⟩
    · next e rest hcons => exact perform_defined (hall e (by rw [hcons]; exact List.mem_cons_self)) _
  refine ⟨t, ht, List.all_eq_true.mpr fun e he => hall e ?_⟩
  rw [pending_of_step ht] at he
  exact List.mem_of_mem_tail he

/-- A run begins with a step. -/
theorem core_run_succ {s t : State} (h : step s = .next t) (n : Nat) : core.run (n + 1) s = core.run n t := by
  have hcore : core.step s = .next t := h
  simp only [Host.Core.run, hcore]

/-! The obligations -/

/-- Settles O52, by induction on the number of steps: each step answers a state whose host is defined again. -/
theorem definedHostsNeverStop : Obligations.DefinedHostsNeverStop := by
  intro s n h
  induction n generalizing s with
  | zero => exact ⟨s, rfl, h⟩
  | succ n ih =>
    obtain ⟨u, hu, hdef⟩ := step_hostDefined h
    rw [core_run_succ hu]
    exact ih u hdef

/-- Settles O58: an idle step changes nothing, and every event keeps the invariant, which does not see the host's side. -/
theorem stepKeepsTheInvariant : Obligations.StepKeepsTheInvariant := by
  intro s t hinv h
  obtain ⟨-, rfl⟩ | ⟨e, rest, -, hperf⟩ := step_cases h
  · exact hinv
  · exact hperf.inv (hinv.withHostSide rest s.reads)

/-- Settles O51: the accesses left are the tail, and of the events only a read adds to the host's words. -/
theorem accessesAreTakenInOrder : Obligations.AccessesAreTakenInOrder := by
  intro s t h
  have hpending := pending_of_step h
  obtain ⟨hnil, rfl⟩ | ⟨e, rest, hcons, hperf⟩ := step_cases h
  · exact ⟨fun _ => rfl, fun e rest hcons => absurd (hnil.symm.trans hcons) (List.cons_ne_nil _ _).symm⟩
  · refine ⟨fun hnil => absurd (hcons.symm.trans hnil) (List.cons_ne_nil _ _), fun e' rest' hcons' => ?_⟩
    cases hcons.symm.trans hcons'
    refine ⟨by rw [hpending, hcons]; rfl, ?_, hperf.reads_eq⟩
    rintro off rfl
    cases hperf
    exact ⟨_, rfl⟩

/-- Settles O59: no event changes the length of the register list. -/
theorem registerCountNeverChanges : Obligations.RegisterCountNeverChanges := by
  intro s t h
  obtain ⟨-, rfl⟩ | ⟨e, rest, -, hperf⟩ := step_cases h
  · rfl
  · exact hperf.vregs_length

/-- Settles O34: of the four ways a command ends none touches the host's side. -/
theorem commandsLeaveTheHostSide : Obligations.CommandsLeaveTheHostSide := by
  intro i s t h
  obtain ⟨-, hpending, hreads⟩ := (ends_of_exec h).hostSide
  exact ⟨hpending, hreads⟩

/-- Settles O49: such an access passes the check of width and alignment and fails the one of the window. -/
theorem accessesOutsideTheWindowFault : Obligations.AccessesOutsideTheWindowFault := by
  intro s off w rest h4 hout hp
  have hfault (run : Host.Outcome State Fault Refusal) : checkedAccess off 4 run = .fault .outsideWindow := by
    rw [checkedAccess, if_pos ⟨rfl, h4⟩, if_neg hout.not_gt]
  obtain hp | hp := hp <;> rw [step, hp] <;> exact hfault _

/-- Settles O55: the state after a reset is `platformReset`, of which ID and CONFIG read as of any state with as many
registers. -/
theorem resetZeroesEverything : Obligations.ResetZeroesEverything := by
  intro s rest hp
  refine ⟨_, step_reset hp, rfl, rfl, rfl, rfl, fun _ => rfl, rfl, rfl, rfl, ?_, rfl, rfl⟩
  exact congrArg configWord List.length_replicate

/-- Settles O56: `State.reset` computes to R40's values. -/
theorem stateAfterReset : Obligations.StateAfterReset :=
  ⟨rfl, rfl, rfl, rfl, fun _ => rfl, rfl, rfl, rfl, rfl⟩

/-- Settles O57: the reference block has 4 registers, and a reset state of 1 to 16 meets the invariant. -/
theorem resetMeetsTheInvariant : Obligations.ResetMeetsTheInvariant :=
  ⟨State.resetWith_inv (by decide) (by decide), fun _ => State.resetWith_inv⟩

end Sys2Proof.Machine
end

section
/-! PROOFS. What a command leaves alone and what it depends on (10_state.md R23 to R28, R41; 93_implementation_defined.md
P15). The frames are read off the four ways a command ends; that a result depends on the operands only is said of each arm
of `exec` by one relation between the two next states. -/

namespace Sys2Proof.Machine

/-! Frames -/

/-- The commands that write a value register when they succeed (10_state.md R23). -/
abbrev registerOps : List Op := [.zero, .one, .fromu8, .fromu32, .fromu64, .fromslice, .fromhex, .shl, .shr, .add]

/-- The commands that write RES when they succeed (10_state.md R25). -/
abbrev resultOps : List Op := [.tou8, .tou32, .tou64, .getbyte]

/-- The commands that write IOBUF and IOLEN (10_state.md R26, R27). -/
abbrev bufferOps : List Op := [.tohex, .asbytes]

/-- OPC is the command's own opcode, and STICKY is only ever set (60_exceptions.md R203 to R205). -/
theorem Ends.report {i : Instr} {s t : State} (h : Ends i s t) :
    t.status.opc = (encode i).extractLsb' 0 8 ∧ t.status.sticky = (s.status.sticky || decide (t.status.err ≠ .none)) := by
  have hop : (encode i).extractLsb' 0 8 = opcode i.op := opField_encode i
  rw [hop]
  obtain ⟨k, c, hk, rfl⟩ | ht := h.raised_or_succeeded
  · simp [hk]
  · simp [ht]

/-- What is left alone by a command that writes neither RES nor IOBUF. -/
theorem Ends.frame_of_register {i : Instr} {s t : State} {rd : RegIdx} (h : Ends i s t) (hrd : i.regs.head? = some rd)
    (hres : i.op ∉ resultOps) (hbuf : i.op ∉ bufferOps) :
    (∀ r, r ≠ rd → t.getV r = s.getV r) ∧ t.opa = s.opa ∧ t.res = s.res ∧ t.iolen = s.iolen ∧ t.iobuf = s.iobuf := by
  cases h with
  | failed => exact ⟨fun _ _ => rfl, rfl, rfl, rfl, rfl⟩
  | wroteV r v hr =>
    cases hr.symm.trans hrd
    exact ⟨fun _ hne => State.setV_getV_other hne v, rfl, rfl, rfl, rfl⟩
  | wroteRes v hop => exact absurd hop hres
  | exported bs hop => exact absurd hop hbuf

/-- What is left alone by a command that writes neither a value register nor IOBUF; RES too, unless it is one of the commands
that write RES and it succeeds. -/
theorem Ends.frame_of_result {i : Instr} {s t : State} (h : Ends i s t) (hreg : i.op ∉ registerOps)
    (hbuf : i.op ∉ bufferOps) :
    t.vregs = s.vregs ∧ t.opa = s.opa ∧ t.iolen = s.iolen ∧ t.iobuf = s.iobuf ∧
      (i.op ∉ resultOps ∨ t.status.err ≠ .none → t.res = s.res) := by
  cases h with
  | failed => exact ⟨rfl, rfl, rfl, rfl, fun _ => rfl⟩
  | wroteV r v _ _ hop => exact absurd hop hreg
  | wroteRes v hop => exact ⟨rfl, rfl, rfl, rfl, fun h => (h.elim (· hop) (· rfl)).elim⟩
  | exported bs hop => exact absurd hop hbuf

/-- What is left alone by a command that writes neither a value register nor RES. -/
theorem Ends.frame_of_buffer {i : Instr} {s t : State} (h : Ends i s t) (hreg : i.op ∉ registerOps)
    (hres : i.op ∉ resultOps) : t.vregs = s.vregs ∧ t.opa = s.opa ∧ t.res = s.res := by
  cases h with
  | failed | exported => exact ⟨rfl, rfl, rfl⟩
  | wroteV r v _ _ hop => exact absurd hop hreg
  | wroteRes v hop => exact absurd hop hres

/-- A command that writes IOBUF leaves the bytes past the ones it stores as they were; so does one refused for its registers. -/
theorem read_past_of_export {o : Op} {rs : List RegIdx} {s t : State} {bs : List Byte} (hw : s.iobuf.wf = true)
    (h : guarded o rs s (complete (opcode o) (s.exportBytes bs)) = .next t) {a : Nat} (ha : bs.length ≤ a) :
    t.iobuf.read a = s.iobuf.read a := by
  by_cases hok : regsOk s.numVRegs rs = true
  · cases (guarded_inRange hok _).symm.trans h
    rw [complete_iobuf, State.exportBytes_iobuf, Memory.read_writeBytes hw, if_neg (by omega)]
  · cases (guarded_outOfRange hok _).symm.trans h
    rfl

/-! What a result depends on -/

/-- Two states alike in everything a command may read: the value registers, OPA, IOLEN and IOBUF. -/
structure SameOperands (s s' : State) : Prop where
  vregs : s'.vregs = s.vregs
  opa : s'.opa = s.opa
  iolen : s'.iolen = s.iolen
  iobuf : s'.iobuf = s.iobuf

/-- What a command `o` makes alike of two such states: the operands again, the report but STICKY, and RES where the command
writes it. -/
structure SameResults (o : Op) (t t' : State) : Prop extends SameOperands t t' where
  err : t'.status.err = t.status.err
  cause : t'.status.cause = t.status.cause
  opc : t'.status.opc = t.status.opc
  res : t.status.err = .none → o ∈ resultOps → t'.res = t.res

theorem SameOperands.getV {s s' : State} (h : SameOperands s s') (r : RegIdx) : s'.getV r = s.getV r := by
  rw [State.getV, State.getV, h.vregs]

theorem SameOperands.raise {s s' : State} (h : SameOperands s s') (o : Op) (op : BitVec 8) {k : ErrKind}
    (hk : k ≠ .none) (c : BitVec 4) : SameResults o (raise op k c s) (raise op k c s') :=
  ⟨⟨h.vregs, h.opa, h.iolen, h.iobuf⟩, rfl, rfl, rfl, fun herr => absurd herr hk⟩

theorem SameOperands.setV {s s' : State} (h : SameOperands s s') {o : Op} (ho : o ∉ resultOps) (r : RegIdx)
    {v v' : Value} (hv : v' = v) : SameResults o (complete (opcode o) (s.setV r v)) (complete (opcode o) (s'.setV r v')) := by
  subst hv
  exact ⟨⟨congrArg (·.set r.toNat v') h.vregs, h.opa, h.iolen, h.iobuf⟩, rfl, rfl, rfl, fun _ hin => absurd hin ho⟩

theorem SameOperands.setRes {s s' : State} (h : SameOperands s s') (o : Op) (x : Native) :
    SameResults o (complete (opcode o) (s.setRes x)) (complete (opcode o) (s'.setRes x)) :=
  ⟨⟨h.vregs, h.opa, h.iolen, h.iobuf⟩, rfl, rfl, rfl, fun _ _ => rfl⟩

theorem SameOperands.exportBytes {s s' : State} (h : SameOperands s s') {o : Op} (ho : o ∉ resultOps)
    {bs bs' : List Byte} (hbs : bs' = bs) :
    SameResults o (complete (opcode o) (s.exportBytes bs)) (complete (opcode o) (s'.exportBytes bs')) := by
  subst hbs
  exact ⟨⟨h.vregs, h.opa, rfl, congrArg (·.writeBytes 0 bs') h.iobuf⟩, rfl, rfl, rfl, fun _ hin => absurd hin ho⟩

/-- Both outcomes go on, to states with the same results. -/
def SameOutcomes (o : Op) (x x' : Host.Outcome State Fault Refusal) : Prop :=
  ∃ t t', x = .next t ∧ x' = .next t' ∧ SameResults o t t'

/-- The register check decides alike in both states. -/
theorem SameOperands.guarded {s s' run run' : State} (h : SameOperands s s') {o : Op} (rs : List RegIdx)
    (hrun : SameResults o run run') : SameOutcomes o (guarded o rs s run) (guarded o rs s' run') := by
  have hn : s'.numVRegs = s.numVRegs := congrArg List.length h.vregs
  by_cases hok : regsOk s.numVRegs rs = true
  · exact ⟨run, run', guarded_inRange hok run, guarded_inRange (hn ▸ hok) run', hrun⟩
  · exact ⟨_, _, guarded_outOfRange hok run, guarded_outOfRange (hn ▸ hok) run', h.raise o (opcode o) (by decide) _⟩

theorem SameOperands.narrow {s s' : State} (h : SameOperands s s') (o : Op) (k : Nat) (r : RegIdx) :
    SameOutcomes o (narrow o k r s) (narrow o k r s') := by
  refine h.guarded [r] ?_
  rw [h.getV]
  split
  · exact h.setRes o _
  · exact h.raise o _ (by decide) _

/-- Every command gives the same results in two states with the same operands, arm by arm. -/
theorem SameOperands.exec {s s' : State} (h : SameOperands s s') (i : Instr) :
    SameOutcomes i.op (exec i s) (exec i s') := by
  cases i with
  | zero rd | one rd => exact h.guarded [rd] (h.setV (by simp [Instr.op]) rd rfl)
  | fromu8 rd | fromu32 rd | fromu64 rd => exact h.guarded [rd] (h.setV (by simp [Instr.op]) rd (by rw [h.opa]))
  | shl rd | shr rd => exact h.guarded [rd] (h.setV (by simp [Instr.op]) rd (by rw [h.getV, h.opa]))
  | add rd a b => exact h.guarded [rd, a, b] (h.setV (by simp [Instr.op]) rd (by rw [h.getV, h.getV]))
  | mul rd a b => exact h.guarded [rd, a, b] (h.raise .mul _ (by decide) _)
  | tou8 r => exact h.narrow .tou8 1 r
  | tou32 r => exact h.narrow .tou32 4 r
  | tou64 r => exact h.narrow .tou64 8 r
  | tohex r | asbytes r => exact h.guarded [r] (h.exportBytes (by simp [Instr.op]) (by rw [h.getV]))
  | fromslice rd =>
    refine h.guarded [rd] ?_
    rw [h.iolen]
    split
    · exact h.raise .fromslice _ (by decide) _
    · exact h.setV (by simp [Instr.op]) rd (by rw [h.iobuf])
  | fromhex rd =>
    refine h.guarded [rd] ?_
    rw [h.iolen, h.iobuf]
    split
    · exact h.raise .fromhex _ (by decide) _
    · exact h.setV (by simp [Instr.op]) rd rfl
  | getbyte r =>
    refine h.guarded [r] ?_
    rw [h.opa, h.getV]
    split
    · exact h.raise .getbyte _ (by decide) _
    · exact h.setRes .getbyte _

/-! The bytes past the length -/

/-- The value of a slice depends on the bytes of the slice only (40_construction.md R106). -/
theorem sliceValue_congr {m m' : Memory} {n : Nat} (h : ∀ k < n, m'.read k = m.read k) :
    sliceValue m' n = sliceValue m n := by
  refine congrArg ofBytes (funext fun i => ?_)
  split
  · next hi => exact h i hi
  · rfl

/-- The parse depends on the bytes of the text only, and on none of a text that is too long (41_hex_codec.md R121). -/
theorem parseHex_congr {m m' : Memory} {n : Nat} (h : n ≤ 66 → ∀ k < n, m'.read k = m.read k) :
    parseHex m' n = parseHex m n := by
  by_cases hn : n ≤ 66
  · have hbytes : ioBytes m' n = ioBytes m n := List.map_congr_left fun k hk => h hn k (List.mem_range.mp hk)
    rw [parseHex_eq_parseDigits hn, parseHex_eq_parseDigits hn, hbytes]
  · rw [parseHex_tooLong (not_le.mp hn), parseHex_tooLong (not_le.mp hn)]

/-- FROMSLICE of another buffer with the same slice: the same next state, but for the buffer. -/
theorem exec_fromslice_iobuf {s t : State} {m : Memory} {rd : RegIdx}
    (hm : s.iolen.toNat ≤ 32 → ∀ k < s.iolen.toNat, m.read k = s.iobuf.read k) (h : exec (.fromslice rd) s = .next t) :
    exec (.fromslice rd) { s with iobuf := m } = .next { t with iobuf := m } := by
  by_cases hr : rd.toNat < s.vregs.length
  · by_cases hn : s.iolen.toNat ≤ 32
    · cases (exec_fromslice_fits hr hn).symm.trans h
      rw [exec_fromslice_fits (s := { s with iobuf := m }) hr hn, sliceValue_congr (hm hn)]
      rfl
    · cases (exec_fromslice_tooWide hr (not_le.mp hn)).symm.trans h
      exact exec_fromslice_tooWide (s := { s with iobuf := m }) hr (not_le.mp hn)
  · have hbad : ¬ regsOk s.numVRegs (Instr.fromslice rd).regs = true := fun hok => hr (regsOk_one.mp hok)
    cases (exec_outOfRange hbad).symm.trans h
    exact exec_outOfRange (s := { s with iobuf := m }) hbad

/-- FROMHEX of another buffer with the same text: the same next state, but for the buffer. -/
theorem exec_fromhex_iobuf {s t : State} {m : Memory} {rd : RegIdx}
    (hm : s.iolen.toNat ≤ 66 → ∀ k < s.iolen.toNat, m.read k = s.iobuf.read k) (h : exec (.fromhex rd) s = .next t) :
    exec (.fromhex rd) { s with iobuf := m } = .next { t with iobuf := m } := by
  by_cases hr : rd.toNat < s.vregs.length
  · cases hp : parseHex s.iobuf s.iolen.toNat with
    | error c =>
      cases (exec_fromhex_fails hr hp).symm.trans h
      exact exec_fromhex_fails (s := { s with iobuf := m }) hr ((parseHex_congr hm).trans hp)
    | ok v =>
      cases (exec_fromhex_reads hr hp).symm.trans h
      exact exec_fromhex_reads (s := { s with iobuf := m }) hr ((parseHex_congr hm).trans hp)
  · have hbad : ¬ regsOk s.numVRegs (Instr.fromhex rd).regs = true := fun hok => hr (regsOk_one.mp hok)
    cases (exec_outOfRange hbad).symm.trans h
    exact exec_outOfRange (s := { s with iobuf := m }) hbad

/-! The obligations -/

/-- Settles O31: each of the ten has rd as its first register and is none of the commands that write RES or IOBUF. -/
theorem valueRegisterCommandsFrame : Obligations.ValueRegisterCommandsFrame := by
  intro i s t rd hi h
  have ⟨hrd, hres, hbuf⟩ : i.regs.head? = some rd ∧ i.op ∉ resultOps ∧ i.op ∉ bufferOps := by
    obtain rfl | rfl | rfl | rfl | rfl | rfl | rfl | rfl | rfl | ⟨a, b, rfl⟩ := hi <;> simp [Instr.regs, Instr.op]
  have hends := ends_of_exec h
  obtain ⟨hother, hopa, hresEq, hiolen, hiobuf⟩ := hends.frame_of_register hrd hres hbuf
  obtain ⟨hcmd, -, -⟩ := hends.hostSide
  exact ⟨hother, hends.vregs_length, hopa, hresEq, hiolen, hcmd, fun a => by rw [hiobuf], hends.report⟩

/-- Settles O32: none of the five writes a value register or IOBUF, and MUL does not write RES either. -/
theorem resultCommandsFrame : Obligations.ResultCommandsFrame := by
  intro i s t hi h
  have ⟨hreg, hbuf⟩ : i.op ∉ registerOps ∧ i.op ∉ bufferOps := by
    obtain ⟨r, rfl | rfl | rfl | rfl⟩ | ⟨rd, a, b, rfl⟩ := hi <;> simp [Instr.op]
  have hends := ends_of_exec h
  obtain ⟨hvregs, hopa, hiolen, hiobuf, hres⟩ := hends.frame_of_result hreg hbuf
  obtain ⟨hcmd, -, -⟩ := hends.hostSide
  refine ⟨hvregs, hopa, hiolen, hcmd, fun a => by rw [hiobuf], fun hkeep => hres (hkeep.imp_left ?_), hends.report⟩
  rintro ⟨rd, a, b, rfl⟩
  simp [Instr.op]

/-- Settles O33: neither writes a value register or RES, and each stores its own number of bytes from byte 0. -/
theorem bufferCommandsFrame : Obligations.BufferCommandsFrame := by
  intro i s t r hwf hi h
  have ⟨hreg, hres⟩ : i.op ∉ registerOps ∧ i.op ∉ resultOps := by
    obtain rfl | rfl := hi <;> simp [Instr.op]
  have hends := ends_of_exec h
  obtain ⟨hvregs, hopa, hresEq⟩ := hends.frame_of_buffer hreg hres
  obtain ⟨hcmd, -, -⟩ := hends.hostSide
  refine ⟨hvregs, hopa, hresEq, hcmd, fun a ha => ?_, hends.report⟩
  obtain rfl | rfl := hi
  · rw [if_pos rfl, ← length_hexText (s.getV r)] at ha
    exact read_past_of_export (o := .tohex) hwf h ha
  · have hlen : ((List.range 32).map (byteAt (s.getV r))).length ≤ a := by simpa using ha
    exact read_past_of_export (o := .asbytes) hwf h hlen

/-- Settles O38: two such states have the same operands, so every arm of `exec` gives the same results. -/
theorem resultsDoNotDependOnStatus : Obligations.ResultsDoNotDependOnStatus := by
  intro i s s' t t' hvregs hopa hiolen hiobuf ht ht'
  obtain ⟨u, u', hu, hu', hsame⟩ := SameOperands.exec ⟨hvregs, hopa, hiolen, hiobuf⟩ i
  cases hu.symm.trans ht
  cases hu'.symm.trans ht'
  refine ⟨hsame.vregs, hsame.opa, hsame.iolen, hsame.iobuf, hsame.err, hsame.cause, hsame.opc, fun herr hi => ?_⟩
  refine hsame.res herr ?_
  obtain ⟨r, rfl | rfl | rfl | rfl⟩ := hi <;> simp [Instr.op]

/-- Settles O39: the slice and the text are read byte by byte below IOLEN, and not at all when IOLEN is over the limit. -/
theorem bytesPastTheLengthAreNotRead : Obligations.BytesPastTheLengthAreNotRead := by
  intro s t t' m rd
  refine ⟨fun hm ht ht' => ?_, fun hm ht ht' => ?_⟩
  · cases (exec_fromslice_iobuf hm ht).symm.trans ht'
    rfl
  · cases (exec_fromhex_iobuf hm ht).symm.trans ht'
    rfl

end Sys2Proof.Machine
end

section
/-! PROOFS. The values read from and written to the host (20_memory.md R61, R64; 30_encoding.md R88, R89; 41_hex_codec.md
R120, R121; 43_add_narrow.md R164): the digits FROMHEX reads, what the narrowing commands return, a register copied through
IOBUF, and what the directives leave. -/

namespace Sys2Proof.Machine

/-! The text FROMHEX reads -/

/-- A buffer of an optional 0x or 0X and 1 to 64 digits parses to the number they spell (R121). -/
theorem parseHex_prefixed {m : Memory} {n : Nat} {pre ds : List Byte}
    (hpre : pre = [] ∨ pre = [0x30#8, 0x78#8] ∨ pre = [0x30#8, 0x58#8]) (hd : ∀ c ∈ ds, (hexval c).isSome = true)
    (h1 : 1 ≤ ds.length) (h64 : ds.length ≤ 64) (hn : n = pre.length + ds.length)
    (hread : ∀ k < pre.length + ds.length, m.read k = (pre ++ ds).getD k 0#8) :
    parseHex m n = .ok (BitVec.ofNat 256 (hexNumber ds)) := by
  rw [← List.length_append] at hn hread
  have hlen : (pre ++ ds).length ≤ 66 := by
    rw [List.length_append]
    obtain rfl | rfl | rfl := hpre <;> simp only [List.length_cons, List.length_nil] <;> omega
  rw [hn, parseHex_eq_parseDigits hlen, ioBytes_eq hread, stripPrefix_append hpre hd]
  exact parseDigits_ok hd h1 h64

/-- The lowest n digits of a number as characters, most significant first (R120). -/
def digitText (v n : Nat) : List Byte := (List.range n).map fun k => hexchar (BitVec.ofNat 4 (v / 16 ^ (n - 1 - k)))

theorem length_digitText (v n : Nat) : (digitText v n).length = n := by rw [digitText, List.length_map, List.length_range]

theorem getD_digitText (v : Nat) {n k : Nat} (hk : k < n) :
    (digitText v n).getD k 0#8 = hexchar (BitVec.ofNat 4 (v / 16 ^ (n - 1 - k))) := by
  simp [digitText, List.getD_eq_getElem?_getD, hk]

theorem isSome_hexval_of_mem_digitText {v n : Nat} {c : Byte} (hc : c ∈ digitText v n) : (hexval c).isSome = true := by
  obtain ⟨k, -, rfl⟩ := List.mem_map.mp hc
  rw [hexval_hexchar]
  rfl

/-- The digits of a number below 16^n spell it. -/
theorem hexNumber_digitText {v n : Nat} (h : v < 16 ^ n) : hexNumber (digitText v n) = v :=
  (foldl_hexchar v n).trans (Nat.mod_eq_of_lt h)

/-! Narrowing -/

/-- Narrowing to k bytes succeeds exactly on the numbers below 256^k (R164). -/
theorem narrow_err_iff {s t : State} {r : RegIdx} (hr : r.toNat < s.vregs.length) {op : Op} {k : Nat}
    (h : narrow op k r s = .next t) : t.status.err = .none ↔ (s.getV r).toNat < 256 ^ k := by
  rw [← highBytesZero_iff]
  cases (narrow_inRange hr op k).symm.trans h
  split
  · next hz => exact iff_of_true rfl hz
  · next hz => exact iff_of_false (by simp) hz

/-- Narrowing answers, succeeds exactly on the numbers that fit, and returns the number (R164). -/
theorem narrow_answers {s : State} {r : RegIdx} (hr : r.toNat < s.vregs.length) (op : Op) {k : Nat} (hk : k ≤ 8) :
    ∃ t, narrow op k r s = .next t ∧ (t.status.err = .none ↔ (s.getV r).toNat < 256 ^ k) ∧
      (t.status.err = .none → t.res.toNat = (s.getV r).toNat) := by
  obtain ⟨t, ht, hres⟩ := narrow_res hr op hk
  exact ⟨t, ht, narrow_err_iff hr ht, hres⟩

/-! MOV -/

/-- What ASBYTES leaves: the value's bytes in IOBUF, their number in IOLEN, and the rest as it was (R169). -/
theorem asbytes_answers {s : State} {r : RegIdx} (h : r.toNat < s.vregs.length) :
    ∃ t, exec (.asbytes r) s = .next t ∧ t.vregs = s.vregs ∧ t.opa = s.opa ∧ t.res = s.res ∧ t.iolen = 32#16 ∧
      t.iobuf = s.iobuf.writeBytes 0 ((List.range 32).map (byteAt (s.getV r))) ∧ t.status.sticky = s.status.sticky := by
  refine ⟨_, exec_asbytes h, ?_⟩
  simp

/-- The slice of the 32 bytes ASBYTES stored is the value they came from (R89). -/
theorem sliceValue_export_bytes {m : Memory} (hw : m.wf = true) (v : Value) :
    sliceValue (m.writeBytes 0 ((List.range 32).map (byteAt v))) 32 = v := by
  refine ofBytes_eq_iff.mpr fun i hi => ?_
  rw [if_pos hi, read_export_bytes hw, if_pos hi]

/-! The directives -/

/-- The two halves of a native operand, put together. -/
theorem append_halves (n : Native) : n.extractLsb' 32 32 ++ n.extractLsb' 0 32 = n :=
  (BitVec.extractLsb'_append_extractLsb'_eq_extractLsb' (start₁ := 0) (len₁ := 32) (start₂ := 32) rfl).trans
    BitVec.extractLsb'_eq_self

/-- The step that stores IOLEN (10_state.md R37). -/
theorem step_write_iolen (s : State) (w : Word) (rest : List HostEvent) :
    step { s with pending := .write 0x18 4 w :: rest } =
      .next { s with pending := rest, iolen := w.extractLsb' 0 16 } :=
  (iolenIsTheLowHalf { s with pending := .write 0x18 4 w :: rest } w rest).1 rfl

/-- The two stores of OPA, low half first, leave the operand they are the halves of (10_state.md R35). -/
theorem run_write_opa (s : State) (n : Native) :
    core.run 2 { s with pending := [.write 0x08 4 (n.extractLsb' 0 32), .write 0x0C 4 (n.extractLsb' 32 32)] } =
      .next { s with pending := [], opa := n } := by
  obtain ⟨x, hlow, hxlow, -⟩ := (opaIsTwoHalves
    { s with pending := [.write 0x08 4 (n.extractLsb' 0 32), .write 0x0C 4 (n.extractLsb' 32 32)] } _ _).1 rfl
  obtain ⟨y, hhigh, hyhigh, hylow⟩ := (opaIsTwoHalves
    { s with pending := [.write 0x0C 4 (n.extractLsb' 32 32)], opa := x } _ _).2.1 rfl
  have hy : y = n := by
    rw [← append_halves y, hyhigh, hylow, hxlow, append_halves]
  rw [core_run_succ hlow, core_run_succ hhigh, hy]
  rfl

/-- A number of IOLEN's width, extended to a word and cut back. -/
theorem extractLsb'_zeroExtend (l : BitVec 16) : (l.zeroExtend 32).extractLsb' 0 16 = l := by
  apply BitVec.eq_of_toNat_eq
  simpa [BitVec.extractLsb'_toNat] using l.isLt

/-- The write of word m of a byte string to IOBUF, 0 past the string's end (R88). -/
def ioWordWrite (bs : List Byte) (m : Nat) : HostEvent :=
  .write (0x40 + 4 * m) 4
    (wordOfBytes (bs.getD (4 * m) 0#8) (bs.getD (4 * m + 1) 0#8) (bs.getD (4 * m + 2) 0#8) (bs.getD (4 * m + 3) 0#8))

theorem ioWrites_eq (bs : List Byte) :
    ioWrites bs = (List.range ((bs.length + 3) / 4)).map (ioWordWrite bs) ++ [.write 0x18 4 (BitVec.ofNat 32 bs.length)] :=
  rfl

/-- IOBUF with word m of a byte string stored, 0 past the string's end (10_state.md R38). -/
def storeWord (bs : List Byte) (m : Nat) (b : Memory) : Memory :=
  b.writeBytes (4 * m) [bs.getD (4 * m) 0#8, bs.getD (4 * m + 1) 0#8, bs.getD (4 * m + 2) 0#8, bs.getD (4 * m + 3) 0#8]

theorem wf_storeWord {b : Memory} (hw : b.wf = true) (bs : List Byte) (m : Nat) : (storeWord bs m b).wf = true :=
  Memory.wf_writeBytes hw _ _

/-- The four bytes of the word are the string's; every other byte is as before. -/
theorem read_storeWord {b : Memory} (hw : b.wf = true) (bs : List Byte) (m k : Nat) :
    (storeWord bs m b).read k = if 4 * m ≤ k ∧ k < 4 * m + 4 ∧ k < 66 then bs.getD k 0#8 else b.read k := by
  rw [storeWord, Memory.read_writeBytes hw]
  refine ite_congr rfl (fun hk => ?_) (fun _ => rfl)
  obtain ⟨j, rfl⟩ := Nat.exists_eq_add_of_le hk.1
  rw [Nat.add_sub_cancel_left]
  match j, Nat.lt_of_add_lt_add_left hk.2.1 with
  | 0, _ | 1, _ | 2, _ | 3, _ => rfl

/-- The step that stores word m of a byte string. -/
theorem step_ioWordWrite (s : State) (bs : List Byte) {m : Nat} (hm : m < 17) (rest : List HostEvent) :
    step { s with pending := ioWordWrite bs m :: rest } =
      .next { s with pending := rest, iobuf := storeWord bs m s.iobuf } := by
  obtain ⟨h0, h1, h2, h3⟩ := wordByte_wordOfBytes (bs.getD (4 * m) 0#8) (bs.getD (4 * m + 1) 0#8)
    (bs.getD (4 * m + 2) 0#8) (bs.getD (4 * m + 3) 0#8)
  rw [step_store rfl (by omega) (by omega) (by omega), regAt_iobuf ⟨m, hm⟩, storeReg, h0, h1, h2, h3]
  rfl

/-- The words from word a on, then the length: the bytes of those words are the string's, every other byte is as before. -/
theorem run_ioWrites (bs : List Byte) (l : Word) {a n : Nat} (hn : a + n ≤ 17) {s : State} (hw : s.iobuf.wf = true) :
    ∃ b : Memory,
      core.run (n + 1) { s with pending := (List.range' a n).map (ioWordWrite bs) ++ [.write 0x18 4 l] } =
        .next { s with pending := [], iobuf := b, iolen := l.extractLsb' 0 16 } ∧
      ∀ k, b.read k = if 4 * a ≤ k ∧ k < 4 * (a + n) ∧ k < 66 then bs.getD k 0#8 else s.iobuf.read k := by
  induction n generalizing a s with
  | zero =>
    refine ⟨s.iobuf, core_run_succ (step_write_iolen s l []) 0, fun k => ?_⟩
    rw [if_neg (by omega)]
  | succ n ih =>
    obtain ⟨b, hrun, hread⟩ := ih (a := a + 1) (s := { s with iobuf := storeWord bs a s.iobuf }) (by omega)
      (wf_storeWord hw bs a)
    refine ⟨b, (core_run_succ (step_ioWordWrite s bs (by omega) _) (n + 1)).trans hrun, fun k => ?_⟩
    rw [hread, read_storeWord hw, ← ite_or]
    exact if_congr (by omega) rfl rfl

/-! The obligations -/

/-- Settles O13: the text is digits after an optional 0x or 0X, so it parses to the number they spell, which 256 bits hold. -/
theorem fromhexReadsTheNumber : Obligations.FromhexReadsTheNumber := by
  intro s rd pre ds hrd hpre hd h1 h64 hlen hread
  have hexec := exec_fromhex_reads hrd (parseHex_prefixed hpre hd h1 h64 hlen hread)
  refine ⟨hexec, _, hexec, ?_⟩
  rw [complete_getV, State.setV_getV_same hrd]
  exact toNat_ofNat_hexNumber h64

/-- Settles O14: the n characters are the digits of the value, so the number they spell is the value. -/
theorem fromhexReadsAValueFromItsDigits : Obligations.FromhexReadsAValueFromItsDigits := by
  intro s rd pre v n hrd hpre h1 hn hv hlen hprefix hdigits
  have htext := length_digitText v.toNat n
  have hread : ∀ k < pre.length + (digitText v.toNat n).length,
      s.iobuf.read k = (pre ++ digitText v.toNat n).getD k 0#8 := by
    intro k hk
    rcases Nat.lt_or_ge k pre.length with hlt | hge
    · rw [hprefix k hlt, List.getD_append _ _ _ _ hlt]
    · obtain ⟨j, rfl⟩ := Nat.exists_eq_add_of_le hge
      have hj : j < n := by omega
      rw [hdigits j hj, List.getD_append_right _ _ _ _ hge, Nat.add_sub_cancel_left, getD_digitText _ hj]
  have hparse := parseHex_prefixed hpre (fun _ => isSome_hexval_of_mem_digitText) (by omega) (by omega)
    (hlen.trans (by rw [htext])) hread
  rw [hexNumber_digitText hv, BitVec.ofNat_toNat, BitVec.setWidth_eq] at hparse
  exact exec_fromhex_reads hrd hparse

/-- Settles O26: 2^8, 2^32 and 2^64 are 256 to the power of 1, 4 and 8 bytes. -/
theorem narrowingSucceedsIffItFits : Obligations.NarrowingSucceedsIffItFits := by
  intro s r hr
  obtain ⟨t8, ht8, hfits8, hres8⟩ := narrow_answers hr .tou8 (k := 1) (by decide)
  obtain ⟨t32, ht32, hfits32, hres32⟩ := narrow_answers hr .tou32 (k := 4) (by decide)
  obtain ⟨t64, ht64, hfits64, hres64⟩ := narrow_answers hr .tou64 (k := 8) (by decide)
  exact ⟨t8, t32, t64, ht8, ht32, ht64, hfits8, hfits32, hfits64, hres8, hres32, hres64⟩

/-- Settles O30: FROMSLICE reads back the 32 bytes ASBYTES stored, and neither touches OPA, RES or the rest of IOBUF. -/
theorem movCopiesTheRegister : Obligations.MovCopiesTheRegister := by
  intro s vd vs hwf hvd hvs
  obtain ⟨t, ht, hvregs, hopa, hres, hiolen, hiobuf, hsticky⟩ := asbytes_answers hvs
  have hn : t.iolen.toNat = 32 := congrArg BitVec.toNat hiolen
  have hu := exec_fromslice_fits (s := t) (hvregs ▸ hvd) hn.le
  rw [hn, hiobuf, sliceValue_export_bytes hwf] at hu
  refine ⟨t, _, ht, hu, congrArg (·.set vd.toNat (s.getV vs)) hvregs, hiolen, hopa, hres, fun k hk => ?_, rfl, hsticky⟩
  rw [complete_iobuf, State.setV_iobuf, hiobuf, read_export_bytes hwf, if_neg (by omega)]

/-- Settles O12: the first part is the definition; `hexchar` and its inverse are checked on the 16 digits. -/
theorem hexDigitsAreTheSixteenInTwoCases : Obligations.HexDigitsAreTheSixteenInTwoCases :=
  ⟨fun _ => rfl, by decide, hexval_hexchar⟩

/-- Settles O53: the two stores of OPA leave its low half and then its high half; IOLEN is the low half of its word. -/
theorem operandDirectivesSetTheirRegister : Obligations.OperandDirectivesSetTheirRegister := by
  intro s n l
  have hiolen := step_write_iolen s (l.zeroExtend 32) []
  rw [extractLsb'_zeroExtend] at hiolen
  exact ⟨⟨_, rfl, run_write_opa s n⟩, ⟨_, rfl, core_run_succ hiolen 0⟩⟩

/-- Settles O54: the directive's words cover the bytes and the rest of the last word, where the string reads 0. -/
theorem ioDirectiveLoadsTheBytes : Obligations.IoDirectiveLoadsTheBytes := by
  intro s bs hwf hlen
  obtain ⟨b, hrun, hread⟩ := run_ioWrites bs (BitVec.ofNat 32 bs.length) (a := 0) (n := (bs.length + 3) / 4) (by omega) hwf
  have hes : Directive.accesses (.io bs) = some (ioWrites bs) := if_pos hlen
  have hcount : (ioWrites bs).length = (bs.length + 3) / 4 + 1 := by simp [ioWrites_eq]
  have hiolen : (BitVec.ofNat 32 bs.length).extractLsb' 0 16 = BitVec.ofNat 16 bs.length := by
    apply BitVec.eq_of_toNat_eq
    simp [BitVec.extractLsb'_toNat]
  refine ⟨rfl, ioWrites bs, b, hes, ?_, fun k hk => ?_, fun k hk => ?_⟩
  · rw [hcount, ioWrites_eq, List.range_eq_range', hrun, hiolen]
  · rw [hread, if_pos (by omega)]
  · have hpad : bs.getD k 0#8 = 0#8 := List.getD_eq_default _ _ hk
    rw [hread, hpad]
    by_cases h66 : k < 66
    · exact if_congr (by omega) rfl rfl
    · rw [if_neg (by omega), Memory.read_past hwf (by omega), ite_self]

end Sys2Proof.Machine
end
